-- ==== Sys2Proof/Word.lean ====
section
/-! DEFINITION. The 32-bit word of the hardware (spec/00_scope.md R5, R6). -/

namespace Sys2Proof

/-- Every register, data-memory word, signal value and packed instruction is one 32-bit unsigned
number (R5 `XLEN`, `ILEN`, `W_PC`); `+`, `-` and `<<` on it are modulo 2^32 (R6). -/
abbrev Word := BitVec 32

/-- The number of a general register: a 5-bit field, so always 0 to 31 (R5 `W_REG`, R11, R45). -/
abbrev RegNum := BitVec 5

end Sys2Proof
end

