-- ==== Sys2Proof/Machine/Flags.lean ====
section
/-! DEFINITION. The hardware has no flags register and no condition codes (spec/10_state.md R17);
comparisons are made inside one instruction. These are the three comparisons. -/

namespace Sys2Proof.Machine

/-- SLT's value: 1 when `signed(op1) < signed(op2)`, else 0 (spec/41_rtype_alu.md R85). -/
def sltValue (op1 op2 : Word) : Word := if op1.toInt < op2.toInt then 1#32 else 0#32

/-- BEQ's condition: all 32 bits equal (spec/44_branch_jump.md R101). -/
def branchIfEqual (op1 op2 : Word) : Bool := decide (op1 = op2)

/-- BNE's condition: any of the 32 bits differs (R102). -/
def branchIfNotEqual (op1 op2 : Word) : Bool := decide (op1 ≠ op2)

end Sys2Proof.Machine
end

