-- ==== Sys2Proof/Config.lean ====
section
/-! DEFINITION. What is fixed for the hardware, and the types of its two open parameters
(spec/00_scope.md R5). No value of this hardware is left free (spec/10_state.md R29). -/

namespace Sys2Proof

/-- `MEM_WORDS`: the number of words of data memory (R5, R22). -/
abbrev memWords : Nat := 1024

/-- What a word of data memory reads as when nothing has written it: "zero-initialized" (R22, R25). -/
abbrev memResetWord : Word := 0

/-- The bound on `PROG_LEN`: a Program has fewer than 2^32 instructions (R5, decision D14). -/
abbrev progLenBound : Nat := 2 ^ 32

/-- The open parameter `PCIN_MODE` (R5, R63, decision D7): which value of the program counter the
Fetch stage drives onto `pc_in` for the instruction fetched from index `f`. -/
inductive PcinMode where
  /-- `f + 1`, the counter after the increment; the default. -/
  | next
  /-- `f`, the index of the instruction itself. -/
  | current
deriving DecidableEq, Repr

/-- The open parameter `FATAL_POLICY` (R5, R116, decision D9): what a fatal error does to the run. -/
inductive FatalPolicy where
  /-- After the step that raised the error no state changes again; the default. -/
  | halt
  /-- The error is recorded and the next edge proceeds normally. -/
  | continue
deriving DecidableEq, Repr

end Sys2Proof
end

