-- ==== Sys2Proof/Syntax.lean ====
section
/-! DEFINITION. An instruction as the six-field record of the spec, and as one of the eleven
instructions (spec/30_encoding.md R45, R53, R54). -/

namespace Sys2Proof

/-- The spec's Instruction: a record of six fields, each of exactly its semantic width (R45). This is
what the `instr` signal carries; it need not be a supported instruction. -/
structure Fields where
  opcode : BitVec 6
  rs : RegNum
  rt : RegNum
  rd : BitVec 5
  shamt : BitVec 5
  funct : BitVec 6
deriving DecidableEq, Repr

/-- The default Instruction value: "all-zero" (R45). -/
def Fields.zero : Fields := ⟨0, 0, 0, 0, 0, 0⟩

/-- The eleven instructions, one constructor per row of spec/opcode_table.json. Each keeps every field
of its record that the opcode (and, for R-type, the funct) does not fix, the ignored ones too (R56):
an ignored field still stands on a signal of the Decode stage (R48). -/
inductive Instr where
  /-- R81 -/
  | add (rs rt : RegNum) (rd shamt : BitVec 5)
  /-- R82 -/
  | sub (rs rt : RegNum) (rd shamt : BitVec 5)
  /-- R83 -/
  | and (rs rt : RegNum) (rd shamt : BitVec 5)
  /-- R84 -/
  | or (rs rt : RegNum) (rd shamt : BitVec 5)
  /-- R85 -/
  | slt (rs rt : RegNum) (rd shamt : BitVec 5)
  /-- R90 -/
  | addi (rs rt : RegNum) (rd shamt : BitVec 5) (funct : BitVec 6)
  /-- R94 -/
  | lw (rs rt : RegNum) (rd shamt : BitVec 5) (funct : BitVec 6)
  /-- R95 -/
  | sw (rs rt : RegNum) (rd shamt : BitVec 5) (funct : BitVec 6)
  /-- R101 -/
  | beq (rs rt : RegNum) (rd shamt : BitVec 5) (funct : BitVec 6)
  /-- R102 -/
  | bne (rs rt : RegNum) (rd shamt : BitVec 5) (funct : BitVec 6)
  /-- R103 -/
  | j (rs rt : RegNum) (rd shamt : BitVec 5) (funct : BitVec 6)
deriving DecidableEq, Repr

end Sys2Proof
end

