-- ==== Sys2Proof/WellFormed.lean ====
section
/-! DEFINITION. The checks on what is given to the machine: a field record whose fields are numbers, a
Program, and whether a record is one of the eleven instructions. An `Instr` is well-formed by its
types: decision D1 makes a field wider than its meaning unrepresentable (spec/30_encoding.md R45). -/

namespace Sys2Proof

/-- An Instruction record as the source stores it, every field "stored as unsigned 32-bit words but
semantically narrow" (R45): what a harness may hold before setup. -/
structure RawFields where
  opcode : Nat
  rs : Nat
  rt : Nat
  rd : Nat
  shamt : Nat
  funct : Nat
deriving DecidableEq, Repr

/-- No field is wider than its meaning. A record that fails is rejected at setup, never masked
(spec/93_implementation_defined.md U6, decision D1). -/
def rawFieldsWf (f : RawFields) : Bool :=
  decide (f.opcode < 64) && decide (f.rs < 32) && decide (f.rt < 32) && decide (f.rd < 32) &&
    decide (f.shamt < 32) && decide (f.funct < 64)

/-- A Program may have any length from 0 to 2^32 - 1 (R5, decision D14). -/
def programWf (p : List Word) : Bool := decide (p.length < progLenBound)

/-- The seven supported values of `opcode` (R53). -/
def opcodeSupported (op : BitVec 6) : Bool :=
  op ∈ [0x00#6, 0x02#6, 0x04#6, 0x05#6, 0x08#6, 0x23#6, 0x2B#6]

/-- The five supported values of `funct` under `opcode = 0x00` (R54). -/
def functSupported (fn : BitVec 6) : Bool :=
  fn ∈ [0x20#6, 0x22#6, 0x24#6, 0x25#6, 0x2A#6]

/-- The record is one of the eleven instructions: "there is no other kind of illegal encoding" (R55),
and a field an instruction does not use may hold any value (R56). -/
def fieldsWf (f : Fields) : Bool :=
  opcodeSupported f.opcode && (decide (f.opcode ≠ 0x00#6) || functSupported f.funct)

end Sys2Proof
end

