-- ==== Sys2Proof/Decode.lean ====
section
/-! DEFINITION. The packed word and its six fields, the immediate, the decoder and, after it, the
encoder (spec/30_encoding.md R46 to R56). The positions of the fields in the packed word are the spec's
decision D2. -/

namespace Sys2Proof

/-- `opcode = word[31:26]`, `rs = word[25:21]`, `rt = word[20:16]`, `rd = word[15:11]`,
`shamt = word[10:6]`, `funct = word[5:0]` (R46). -/
def unpack (w : Word) : Fields where
  opcode := w.extractLsb' 26 6
  rs := w.extractLsb' 21 5
  rt := w.extractLsb' 16 5
  rd := w.extractLsb' 11 5
  shamt := w.extractLsb' 6 5
  funct := w.extractLsb' 0 6

/-- `word = opcode ++ rs ++ rt ++ rd ++ shamt ++ funct`, most significant first (R46). -/
def pack (f : Fields) : Word :=
  f.opcode ++ f.rs ++ f.rt ++ f.rd ++ f.shamt ++ f.funct

/-- A record of numbers that passes `rawFieldsWf`, as a record of fields. -/
def ofRawFields (f : RawFields) : Fields where
  opcode := BitVec.ofNat 6 f.opcode
  rs := BitVec.ofNat 5 f.rs
  rt := BitVec.ofNat 5 f.rt
  rd := BitVec.ofNat 5 f.rd
  shamt := BitVec.ofNat 5 f.shamt
  funct := BitVec.ofNat 6 f.funct

/-- The immediate the Decode stage makes for every word: `(rt << 16) | rd`, both zero-extended to 32
bits (R48, R49). -/
def immediateOf (rt : RegNum) (rd : BitVec 5) : Word :=
  (rt.setWidth 32 <<< 16) ||| rd.setWidth 32

/-- Why a record is no instruction (R55). The Execute stage raises the fatal error of the same name. -/
inductive DecodeError where
  /-- `opcode` is none of the seven supported values (R55(a)). -/
  | unsupportedOpcode (opcode : BitVec 6)
  /-- `opcode = 0x00` and `funct` is none of the five supported values (R55(b)). -/
  | unsupportedFunct (funct : BitVec 6)
deriving DecidableEq, Repr

/-- Secondary dispatch, under `opcode = 0x00`, on `funct` (R54, R67). -/
def decodeRType (f : Fields) : Except DecodeError Instr :=
  if f.funct = 0x20#6 then .ok (.add f.rs f.rt f.rd f.shamt)
  else if f.funct = 0x22#6 then .ok (.sub f.rs f.rt f.rd f.shamt)
  else if f.funct = 0x24#6 then .ok (.and f.rs f.rt f.rd f.shamt)
  else if f.funct = 0x25#6 then .ok (.or f.rs f.rt f.rd f.shamt)
  else if f.funct = 0x2A#6 then .ok (.slt f.rs f.rt f.rd f.shamt)
  else .error (.unsupportedFunct f.funct)

/-- Primary dispatch on `opcode` (R53, R67): total, rejecting by name. -/
def decode (f : Fields) : Except DecodeError Instr :=
  if f.opcode = 0x00#6 then decodeRType f
  else if f.opcode = 0x08#6 then .ok (.addi f.rs f.rt f.rd f.shamt f.funct)
  else if f.opcode = 0x23#6 then .ok (.lw f.rs f.rt f.rd f.shamt f.funct)
  else if f.opcode = 0x2B#6 then .ok (.sw f.rs f.rt f.rd f.shamt f.funct)
  else if f.opcode = 0x04#6 then .ok (.beq f.rs f.rt f.rd f.shamt f.funct)
  else if f.opcode = 0x05#6 then .ok (.bne f.rs f.rt f.rd f.shamt f.funct)
  else if f.opcode = 0x02#6 then .ok (.j f.rs f.rt f.rd f.shamt f.funct)
  else .error (.unsupportedOpcode f.opcode)

/-- The instruction a packed 32-bit word holds. There is one length and one format (R47, R57), and no
byte order of instruction fetch (R34). -/
def decodeWord (w : Word) : Except DecodeError Instr := decode (unpack w)

/-- The instruction that the decoder reads from the word whose lowest `nbits` bits are `w`, every
higher bit being 0. -/
def decodeTableWord (nbits w : Nat) : Option Instr :=
  (decodeWord (BitVec.ofNat 32 (w % 2 ^ nbits))).toOption

/-- The record of an instruction, from the opcode and function-code maps of R53 and R54. -/
def encode : Instr → Fields
  | .add rs rt rd shamt => ⟨0x00#6, rs, rt, rd, shamt, 0x20#6⟩
  | .sub rs rt rd shamt => ⟨0x00#6, rs, rt, rd, shamt, 0x22#6⟩
  | .and rs rt rd shamt => ⟨0x00#6, rs, rt, rd, shamt, 0x24#6⟩
  | .or rs rt rd shamt => ⟨0x00#6, rs, rt, rd, shamt, 0x25#6⟩
  | .slt rs rt rd shamt => ⟨0x00#6, rs, rt, rd, shamt, 0x2A#6⟩
  | .addi rs rt rd shamt funct => ⟨0x08#6, rs, rt, rd, shamt, funct⟩
  | .lw rs rt rd shamt funct => ⟨0x23#6, rs, rt, rd, shamt, funct⟩
  | .sw rs rt rd shamt funct => ⟨0x2B#6, rs, rt, rd, shamt, funct⟩
  | .beq rs rt rd shamt funct => ⟨0x04#6, rs, rt, rd, shamt, funct⟩
  | .bne rs rt rd shamt funct => ⟨0x05#6, rs, rt, rd, shamt, funct⟩
  | .j rs rt rd shamt funct => ⟨0x02#6, rs, rt, rd, shamt, funct⟩

/-- The packed word of an instruction (R46, R58). -/
def encodeWord (i : Instr) : Word := pack (encode i)

end Sys2Proof
end

