-- ==== Sys2Proof/Machine/State.lean ====
section
/-! DEFINITION. The state of the machine, as plain data (spec/10_state.md R10 to R28), and its value
after reset (R25). -/

namespace Sys2Proof.Machine

/-- The four fatal errors of the hardware (spec/60_exceptions.md R110). `State.raise` records one in
`FSR`; the spec gives the whole state a raise leaves, so a step that raises one still answers `next`,
and no step answers `fault` (log 6). Safe: nothing the spec lets go on is cut off. -/
inductive Fault where
  /-- Raised by the Fetch stage when `pc` is not below `PROG_LEN` (R111). Safe. -/
  | fetchOutOfBounds
  /-- Raised by LW, SW and the harness memory accessors when the address is 1024 or more (R112). Safe. -/
  | memoryOutOfBounds
  /-- Raised by the Execute stage for the 57 unsupported values of `opcode` (R113). Safe. -/
  | unsupportedOpcode
  /-- Raised by the Execute stage for the 59 unsupported values of `funct` under `opcode = 0x00` (R114).
  Safe. -/
  | unsupportedFunct
deriving DecidableEq, Repr

/-- Inputs to which the spec gives no behaviour. -/
inductive Refusal where
  /-- An instruction that `exec` gives no meaning yet; no arm does so in this model. Safe. -/
  | notModelled (mnemonic : String)
  /-- `Harness.getReg` of an index of 32 or more: "no value" (spec/93_implementation_defined.md U4). Safe. -/
  | registerIndexOutOfRange (index : Nat)
  /-- `Harness.installRecords` of a record with a field wider than its meaning (U6, decision D1). Safe. -/
  | fieldWiderThanMeaning
  /-- `Harness.installProgram` of a Program of 2^32 instructions or more (decision D14). Safe. -/
  | programTooLong
deriving DecidableEq, Repr

/-- The fault status record `FSR` (R19). No instruction reads or writes it (R18). -/
structure Fsr where
  /-- 1 once any fatal error has been raised; sticky. -/
  faulted : Bool
  /-- 1 when the run has stopped because of a fatal error under `FATAL_POLICY = halt`. -/
  halted : Bool
  /-- The code of the first fatal error: 0 none, 1 to 4 as in R110. -/
  code : BitVec 3
  /-- The stage that raised it: 0 none, 1 Fetch, 3 Execute. -/
  stage : BitVec 2
  /-- Code 1: the `pc` that failed the bounds check; codes 2 to 4: the fetch index of the instruction. -/
  index : Word
  /-- Code 2: the out-of-bounds word address; otherwise 0. -/
  addr : Word
  /-- How many fatal errors have been raised. -/
  count : Nat
deriving DecidableEq, Repr

/-- `FSR` clear (R25). -/
def Fsr.clear : Fsr := ⟨false, false, 0, 0, 0, 0, 0⟩

/-- Data memory: the words that differ from `memResetWord`, as (word address, word) pairs with
strictly rising addresses (R22, R31; log 1). -/
abbrev Memory := List (Nat × Word)

/-- The complete state (R10), with the Program and the two open parameters beside it: they are fixed
during a run, and a step has no other argument to take them from (log 2). -/
structure State where
  /-- `x[0..31]`, the RegisterFile (R11). -/
  regs : Vector Word 32
  /-- `mem[0..1023]`, the DataMemory (R22). -/
  mem : Memory
  /-- `pc`, an index into the Program (R15). -/
  pc : Word
  /-- Signal Fetch to Decode: the fetched Instruction (R20). -/
  instr : Fields
  /-- Signals Decode to Execute (R20, R48). -/
  opcode : BitVec 6
  rs : RegNum
  rt : RegNum
  rd : BitVec 5
  shamt : BitVec 5
  funct : BitVec 6
  immediate : Word
  /-- Signal Fetch to Execute: `pc_in` (R20, R63). -/
  pcIn : Word
  /-- Output ports of Execute (R20); Fetch reads `branch_taken` and `pc_out` at the next edge. -/
  result : Word
  branchTaken : Bool
  pcOut : Word
  /-- The fault status record (R19). -/
  fsr : Fsr
  /-- Parameter `PROGRAM`, packed words; `PROG_LEN` is its length (R5, R21). -/
  program : List Word
  /-- Parameter `PCIN_MODE` (R5, R63). -/
  pcinMode : PcinMode
  /-- Parameter `FATAL_POLICY` (R5, R116). -/
  fatalPolicy : FatalPolicy
deriving DecidableEq, Repr

/-- The state after reset (R25, R130), with the default parameters (R5) and no Program installed yet
("as supplied; not reset state", R25; log 11). -/
def State.reset : State where
  regs := Vector.replicate 32 0
  mem := []
  pc := 0
  instr := Fields.zero
  opcode := 0
  rs := 0
  rt := 0
  rd := 0
  shamt := 0
  funct := 0
  immediate := 0
  pcIn := 0
  result := 0
  branchTaken := false
  pcOut := 0
  fsr := Fsr.clear
  program := []
  pcinMode := .next
  fatalPolicy := .halt

end Sys2Proof.Machine
end

