-- ==== Sys2Proof/Machine/Ops.lean ====
section
/-! DEFINITION. The named operations over registers, memory, signals, output ports and `FSR`, and
raising a fatal error. There is no return from an error beside it: "there is no return-from-trap
instruction and nothing to return from" (spec/60_exceptions.md R121). -/

namespace Sys2Proof.Machine

/-! ## Registers -/

/-- `x[r]` (spec/00_scope.md R7). -/
def State.reg (s : State) (r : RegNum) : Word := s.regs[r.toNat]'r.isLt

/-- `x[r] <- v`, for every `r` including 0 (R7, R13). -/
def State.writeReg (s : State) (r : RegNum) (v : Word) : State :=
  { s with regs := s.regs.set r.toNat v r.isLt }

/-! ## Data memory -/

/-- The word at address `a`; an unlisted address reads as `memResetWord`. -/
def memGet : Memory → Nat → Word
  | [], _ => memResetWord
  | (b, v) :: m, a => if a = b then v else memGet m a

/-- `m` with the word at address `a` set to `v`, in the canonical form of `Memory.wf`. -/
def memPut : Memory → Nat → Word → Memory
  | [], a, v => if v = memResetWord then [] else [(a, v)]
  | (b, w) :: m, a, v =>
    if a < b then if v = memResetWord then (b, w) :: m else (a, v) :: (b, w) :: m
    else if a = b then if v = memResetWord then m else (a, v) :: m
    else (b, w) :: memPut m a v

/-- The canonical form of the cells from address `lo` up: addresses strictly rising and below 1024, no
word equal to what an unlisted address reads as. -/
def memWfFrom : Nat → Memory → Bool
  | _, [] => true
  | lo, (a, v) :: m =>
    decide (lo ≤ a) && decide (a < memWords) && decide (v ≠ memResetWord) && memWfFrom (a + 1) m

/-- The canonical form of data memory (log 1). -/
def Memory.wf (m : Memory) : Bool := memWfFrom 0 m

/-- `mem[a]`, the word at word address `a`, without the bounds check. -/
def State.word (s : State) (a : Nat) : Word := memGet s.mem a

/-- `addr < 1024`, compared as unsigned 32-bit numbers (spec/20_memory.md R32). -/
def inBounds (addr : Word) : Bool := decide (addr.toNat < memWords)

/-- `MemRead(addr, 1)` (R33): no value when the address is out of bounds. -/
def State.memRead (s : State) (addr : Word) : Option Word :=
  if inBounds addr then some (s.word addr.toNat) else none

/-- `mem[a] <- v`, without the bounds check: exactly one word changes. -/
def State.writeWord (s : State) (a : Nat) (v : Word) : State := { s with mem := memPut s.mem a v }

/-- `MemWrite(addr, 1, v)` (R33): no new state when the address is out of bounds. -/
def State.memWrite (s : State) (addr v : Word) : Option State :=
  if inBounds addr then some (s.writeWord addr.toNat v) else none

/-! ## Output ports and signals -/

/-- The epilogue of the Execute stage: drive `result`, `branch_taken` and `pc_out`
(spec/40_pipeline_and_dispatch.md R68). -/
def State.drive (s : State) (res : Word) (taken : Bool) (npc : Word) : State :=
  { s with result := res, branchTaken := taken, pcOut := npc }

/-- The epilogue with the default outputs: `result = 0`, `branch_taken = false`, `pc_out = curr_pc`,
where `curr_pc = pc_in` (R66). -/
def State.driveDefaults (s : State) : State := s.drive 0 false s.pcIn

/-- The Decode stage: identity copies of the six fields, and the immediate
(spec/30_encoding.md R48; 40 R64). -/
def State.decodeStage (s : State) : State :=
  { s with
    opcode := s.instr.opcode
    rs := s.instr.rs
    rt := s.instr.rt
    rd := s.instr.rd
    shamt := s.instr.shamt
    funct := s.instr.funct
    immediate := immediateOf s.instr.rt s.instr.rd }

/-- The six decoded-field signals, which the Execute stage dispatches on (R67). -/
def State.decoded (s : State) : Fields :=
  ⟨s.opcode, s.rs, s.rt, s.rd, s.shamt, s.funct⟩

/-! ## Fatal errors -/

/-- The code of each fatal error (spec/60_exceptions.md R110). -/
def faultCode : Fault → BitVec 3
  | .fetchOutOfBounds => 1
  | .memoryOutOfBounds => 2
  | .unsupportedOpcode => 3
  | .unsupportedFunct => 4

/-- The stage that raises each fatal error: 1 Fetch, 3 Execute (R19, R110). -/
def faultStage : Fault → BitVec 2
  | .fetchOutOfBounds => 1
  | .memoryOutOfBounds => 3
  | .unsupportedOpcode => 3
  | .unsupportedFunct => 3

/-- What `raise` does to `FSR` (R116): every error is counted, only the first is recorded in full. -/
def recordFault (f : Fsr) (e : Fault) (index addr : Word) (policy : FatalPolicy) : Fsr :=
  { faulted := true
    halted := f.halted || decide (policy = .halt)
    code := if f.faulted then f.code else faultCode e
    stage := if f.faulted then f.stage else faultStage e
    index := if f.faulted then f.index else index
    addr := if f.faulted then f.addr else addr
    count := f.count + 1 }

/-- `raise E(info)` (R116): the one way a fatal error is taken. It saves no return address, changes no
mode and transfers control nowhere (R120); the report is not modelled (R117). -/
def State.raise (s : State) (e : Fault) (index addr : Word) : State :=
  { s with fsr := recordFault s.fsr e index addr s.fatalPolicy }

/-- The fetch index of the instruction being executed: the Fetch stage of the same step has already
incremented `pc`, so it is `pc - 1` (R15; log 7). -/
def State.fetchIndex (s : State) : Word := s.pc - 1#32

/-- An error of the Execute stage: raised with the fetch index, and the epilogue drives the default
outputs (R68, R112 to R114). -/
def State.executeError (s : State) (e : Fault) (addr : Word) : State :=
  (s.raise e s.fetchIndex addr).driveDefaults

end Sys2Proof.Machine
end

