-- ==== Sys2Proof/Machine/Operands.lean ====
section
/-! DEFINITION. Every operand form of the hardware: the register operands (`State.reg`, Ops.lean), the
sign-extended immediate, the one addressing mode, and the branch and jump targets. The immediate and
the incoming program counter are the Execute stage's ports, any 32-bit values
(spec/40_pipeline_and_dispatch.md R74). -/

namespace Sys2Proof.Machine

/-- `sign_extend16` (spec/30_encoding.md R51): if bit 15 is set, bits 31 to 16 become 1; else the whole
value passes through, bits 31 to 16 included. It does not truncate to 16 bits. -/
def signExtend16 (v : Word) : Word := if v.getLsbD 15 then v ||| 0xFFFF0000#32 else v

/-- The immediate operand of ADDI, LW, SW, BEQ and BNE: `sign_extend16(immediate)`. -/
def State.signedImmediate (s : State) : Word := signExtend16 s.immediate

/-- The effective address of LW and SW: `(op1 + sign_extend16(immediate)) mod 2^32`, a word index
(spec/43_load_store.md R93). -/
def State.effectiveAddress (s : State) (rs : RegNum) : Word := s.reg rs + s.signedImmediate

/-- The target of a taken BEQ or BNE: `curr_pc + (sign_extend16(immediate) << 2) - 4`
(spec/44_branch_jump.md R100). DEDUCED: the immediate is the one R49 makes, its `rt` part included, as
in R105 and spec/95_test_vectors.md V-BRANCH. The example of R107 drops that part: it gives `0xFFFFFFFD`
for BEQ R1, R1, 0 at index 0, where this gives `0x0003FFFD` (log 21). -/
def State.branchTarget (s : State) : Word := s.pcIn + (s.signedImmediate <<< 2) - 4#32

/-- The target of J: `((curr_pc + 4) & 0xF0000000) | (immediate << 2)`, without sign extension and
without a mask to 28 bits (R103). -/
def State.jumpTarget (s : State) : Word :=
  ((s.pcIn + 4#32) &&& 0xF0000000#32) ||| (s.immediate <<< 2)

end Sys2Proof.Machine
end

