-- ==== Sys2Proof/Machine/ControlTransfer.lean ====
section
/-! DEFINITION. BEQ, BNE and J (spec/44_branch_jump.md R100 to R107). None of them writes `pc`: they
drive `branch_taken` and `pc_out`, which the Fetch stage reads at the next edge (R104). -/

namespace Sys2Proof.Machine

/-- What BEQ and BNE share: taken, `branch_taken = 1` and `pc_out` the target; not taken, the default
outputs. `result = 0` either way. -/
def State.branchWhen (s : State) (condition : Bool) : State :=
  if condition then s.drive 0 true s.branchTarget else s.driveDefaults

/-- BEQ (R101). -/
def execBeq (rs rt : RegNum) (_rd _shamt : BitVec 5) (_funct : BitVec 6) (s : State) :
    Host.Outcome State Fault Refusal :=
  .next (s.branchWhen (branchIfEqual (s.reg rs) (s.reg rt)))

/-- BNE (R102). -/
def execBne (rs rt : RegNum) (_rd _shamt : BitVec 5) (_funct : BitVec 6) (s : State) :
    Host.Outcome State Fault Refusal :=
  .next (s.branchWhen (branchIfNotEqual (s.reg rs) (s.reg rt)))

/-- J (R103): always taken; no register is used. -/
def execJ (_rs _rt : RegNum) (_rd _shamt : BitVec 5) (_funct : BitVec 6) (s : State) :
    Host.Outcome State Fault Refusal :=
  .next (s.drive 0 true s.jumpTarget)

end Sys2Proof.Machine
end

