-- ==== Sys2Proof/Machine/ImmediateAdd.lean ====
section
/-! DEFINITION. ADDI (spec/42_addi.md R90 to R92). -/

namespace Sys2Proof.Machine

/-- ADDI (R90): `x[rt] <- op1 + sign_extend16(immediate)`, for every `rt` including 0, and the sum on
`result`. The source is read before the destination is written (R66). -/
def execAddi (rs rt : RegNum) (_rd _shamt : BitVec 5) (_funct : BitVec 6) (s : State) :
    Host.Outcome State Fault Refusal :=
  let res := s.reg rs + s.signedImmediate
  .next ((s.writeReg rt res).drive res false s.pcIn)

end Sys2Proof.Machine
end

