-- ==== Sys2Proof/Machine/LoadStore.lean ====
section
/-! DEFINITION. LW and SW (spec/43_load_store.md R93 to R97). -/

namespace Sys2Proof.Machine

/-- LW (R94): the whole word, into `x[rt]` and onto `result`; out of bounds, MemoryOutOfBounds and no
write. -/
def execLw (rs rt : RegNum) (_rd _shamt : BitVec 5) (_funct : BitVec 6) (s : State) :
    Host.Outcome State Fault Refusal :=
  match s.memRead (s.effectiveAddress rs) with
  | some v => .next ((s.writeReg rt v).drive v false s.pcIn)
  | none => .next (s.executeError .memoryOutOfBounds (s.effectiveAddress rs))

/-- SW (R95): `mem[addr] <- x[rt]`, and `result` stays 0; out of bounds, MemoryOutOfBounds and no
write. -/
def execSw (rs rt : RegNum) (_rd _shamt : BitVec 5) (_funct : BitVec 6) (s : State) :
    Host.Outcome State Fault Refusal :=
  match s.memWrite (s.effectiveAddress rs) (s.reg rt) with
  | some t => .next t.driveDefaults
  | none => .next (s.executeError .memoryOutOfBounds (s.effectiveAddress rs))

end Sys2Proof.Machine
end

