-- ==== Sys2Proof/Machine/RType.lean ====
section
/-! DEFINITION. ADD, SUB, AND, OR, SLT (spec/41_rtype_alu.md R80 to R85): each drives `result` and
writes no register; `rd` and `shamt` have no effect. -/

namespace Sys2Proof.Machine

/-- What all R-type instructions share (R80): `result = res`, `branch_taken = 0`, `pc_out = curr_pc`,
and nothing else. -/
def State.driveResult (s : State) (res : Word) : State := s.drive res false s.pcIn

/-- ADD (R81). -/
def execAdd (rs rt : RegNum) (_rd _shamt : BitVec 5) (s : State) :
    Host.Outcome State Fault Refusal :=
  .next (s.driveResult (s.reg rs + s.reg rt))

/-- SUB (R82). -/
def execSub (rs rt : RegNum) (_rd _shamt : BitVec 5) (s : State) :
    Host.Outcome State Fault Refusal :=
  .next (s.driveResult (s.reg rs - s.reg rt))

/-- AND (R83). -/
def execAnd (rs rt : RegNum) (_rd _shamt : BitVec 5) (s : State) :
    Host.Outcome State Fault Refusal :=
  .next (s.driveResult (s.reg rs &&& s.reg rt))

/-- OR (R84). -/
def execOr (rs rt : RegNum) (_rd _shamt : BitVec 5) (s : State) :
    Host.Outcome State Fault Refusal :=
  .next (s.driveResult (s.reg rs ||| s.reg rt))

/-- SLT (R85). -/
def execSlt (rs rt : RegNum) (_rd _shamt : BitVec 5) (s : State) :
    Host.Outcome State Fault Refusal :=
  .next (s.driveResult (sltValue (s.reg rs) (s.reg rt)))

end Sys2Proof.Machine
end

