-- ==== Sys2Proof/Machine/Dispatch.lean ====
section
/-! DEFINITION. One evaluation of the Execute stage for a decoded instruction
(spec/40_pipeline_and_dispatch.md R66 to R68, R74): one arm per instruction. The register numbers come
from the instruction; the immediate and the incoming program counter from their ports in the state
(log 8). -/

namespace Sys2Proof.Machine

def exec (i : Instr) (s : State) : Host.Outcome State Fault Refusal :=
  match i with
  | .add rs rt rd shamt => Sys2Proof.Machine.execAdd rs rt rd shamt s
  | .sub rs rt rd shamt => Sys2Proof.Machine.execSub rs rt rd shamt s
  | .and rs rt rd shamt => Sys2Proof.Machine.execAnd rs rt rd shamt s
  | .or rs rt rd shamt => Sys2Proof.Machine.execOr rs rt rd shamt s
  | .slt rs rt rd shamt => Sys2Proof.Machine.execSlt rs rt rd shamt s
  | .addi rs rt rd shamt funct => Sys2Proof.Machine.execAddi rs rt rd shamt funct s
  | .lw rs rt rd shamt funct => Sys2Proof.Machine.execLw rs rt rd shamt funct s
  | .sw rs rt rd shamt funct => Sys2Proof.Machine.execSw rs rt rd shamt funct s
  | .beq rs rt rd shamt funct => Sys2Proof.Machine.execBeq rs rt rd shamt funct s
  | .bne rs rt rd shamt funct => Sys2Proof.Machine.execBne rs rt rd shamt funct s
  | .j rs rt rd shamt funct => Sys2Proof.Machine.execJ rs rt rd shamt funct s

end Sys2Proof.Machine
end

