-- ==== Sys2Proof/Machine/Fetch.lean ====
section
/-! DEFINITION. The Fetch stage (spec/40_pipeline_and_dispatch.md R62, R63, R73), and the Execute
stage's answer to a word that is no instruction (R55, R67). -/

namespace Sys2Proof.Machine

/-- The index the next fetch uses: `pc_out` when the last evaluation redirected control, else `pc`
(R62(a), decision D6), as an index, without scaling (spec/10_state.md R16). -/
def State.nextIndex (s : State) : Word := if s.branchTaken then s.pcOut else s.pc

/-- `PROGRAM[f]`, for `f < PROG_LEN` (R21). -/
def State.programAt (s : State) (f : Word) : Option Word := s.program[f.toNat]?

/-- What `PCIN_MODE` puts on `pc_in` for the instruction fetched from index `f` (R63). -/
def pcinValue (mode : PcinMode) (f : Word) : Word :=
  match mode with
  | .next => f + 1#32
  | .current => f

/-- A successful fetch of the word `w` from index `f` (R62(b)): the record on `instr`, `pc`
incremented, `pc_in` driven. -/
def State.emit (s : State) (f w : Word) : State :=
  { s with instr := unpack w, pc := f + 1#32, pcIn := pcinValue s.pcinMode f }

/-- The state in which the Execute stage evaluates the word `w` fetched from index `f`: the fetch, then
the Decode stage (R64, R65). -/
def State.ready (s : State) (f w : Word) : State := (s.emit f w).decodeStage

/-- A failed fetch at index `f` (R62(c), R73, R111): the override has been applied, nothing is emitted,
`pc` is not incremented, and FetchOutOfBounds is raised with `index = pc`. -/
def State.fetchFails (s : State) (f : Word) : State :=
  State.raise { s with pc := f } .fetchOutOfBounds f 0

/-- What the Fetch stage's action comes to. -/
inductive FetchResult where
  | fetched (s : State)
  | notFetched (s : State)
deriving DecidableEq, Repr

/-- The Fetch stage's action at a rising clock edge (R62). -/
def State.fetchStage (s : State) : FetchResult :=
  match s.programAt s.nextIndex with
  | some w => .fetched (s.emit s.nextIndex w)
  | none => .notFetched (s.fetchFails s.nextIndex)

/-- The two default arms of the Execute stage's dispatch (R55, R67): an error, the default outputs, no
register and no memory write. -/
def State.executeUnsupported (s : State) : DecodeError → State
  | .unsupportedOpcode _ => s.executeError .unsupportedOpcode 0
  | .unsupportedFunct _ => s.executeError .unsupportedFunct 0

/-- `p` with the word `w` at index `i`, and the all-zero word at any index below `i` that `p` does not
reach. -/
def placeWord : List Word → Nat → Word → List Word
  | [], 0, w => [w]
  | [], i + 1, w => 0 :: placeWord [] i w
  | _ :: p, 0, w => w :: p
  | v :: p, i + 1, w => v :: placeWord p i w

end Sys2Proof.Machine
end

