-- ==== Sys2Proof/Machine/Settle.lean ====
section
/-! DEFINITION. What follows a successful fetch: the Decode stage and one evaluation of the Execute
stage (spec/40_pipeline_and_dispatch.md R64, R65, R67). -/

namespace Sys2Proof.Machine

/-- After a successful fetch: the Decode stage, then one evaluation of the Execute stage on the decoded
signals (R64, R65, R67). -/
def settle (s : State) : Host.Outcome State Fault Refusal :=
  match decode s.decodeStage.decoded with
  | .ok i => exec i s.decodeStage
  | .error e => .next (s.decodeStage.executeUnsupported e)

end Sys2Proof.Machine
end

