-- ==== Sys2Proof/Machine/Step.lean ====
section
/-! DEFINITION. The step: everything the hardware does at one rising clock edge
(spec/40_pipeline_and_dispatch.md R70), and placing one instruction where the next step fetches it. -/

namespace Sys2Proof.Machine

/-- `Step()` (R70): a halted machine never changes; a failed fetch evaluates nothing more (R73). -/
def step (s : State) : Host.Outcome State Fault Refusal :=
  if s.fsr.halted then .next s
  else
    match s.fetchStage with
    | .fetched t => settle t
    | .notFetched t => .next t

/-- `s` with the word `w` (its bits above `nbits` zero) installed at the index the next fetch uses. It
stands for the harness's loading of a Program (log 11, log 12). A halted machine fetches nothing, so
`FSR.halted` is cleared; no Program has an index 2^32 - 1, so a fetch index of that value is moved
to 0. -/
def State.withFetchWord (s : State) (nbits w : Nat) : State :=
  let t : State :=
    if s.nextIndex = BitVec.allOnes 32 then { s with pc := 0, branchTaken := false } else s
  { t with
    program := placeWord t.program t.nextIndex.toNat (BitVec.ofNat 32 (w % 2 ^ nbits))
    fsr := { t.fsr with halted := false } }

end Sys2Proof.Machine
end

