-- ==== Sys2Proof/Machine/Harness.lean ====
section
/-! DEFINITION. What the harness can do to the hardware, before the first clock edge and after the last
(spec/70_reset_and_hazards.md R131, R132; spec/10_state.md R26; spec/20_memory.md R44). None of it is a
step, and nothing here is used during a run (U5). -/

namespace Sys2Proof.Machine

/-- Install the Program (R131(2)); a Program longer than decision D14 allows is refused. -/
def Harness.installProgram (p : List Word) (s : State) : Host.Outcome State Fault Refusal :=
  if programWf p then .next { s with program := p } else .refused .programTooLong

/-- Install a Program given as records of numbers (R131(2)); a record with a field wider than its
meaning is rejected, not masked (U6). -/
def Harness.installRecords (p : List RawFields) (s : State) : Host.Outcome State Fault Refusal :=
  if p.all rawFieldsWf then Harness.installProgram (p.map fun f => pack (ofRawFields f)) s
  else .refused .fieldWiderThanMeaning

/-- `set_reg(i, v)` (R26): writes `x[i]` for `1 <= i <= 31`, and does nothing for any other index. -/
def Harness.setReg (i : Nat) (v : Word) (s : State) : State :=
  if 1 ≤ i ∧ i ≤ 31 then s.writeReg (BitVec.ofNat 5 i) v else s

/-- `INIT_REGS`: pairs applied through `set_reg` in list order (R26, R131(3)). -/
def Harness.applyInitRegs (pairs : List (Nat × Word)) (s : State) : State :=
  pairs.foldl (fun t p => Harness.setReg p.1 p.2 t) s

/-- `get_reg(i)` (R26): `x[i]` for `i` below 32, refused otherwise (U4). -/
def Harness.getReg (i : Nat) (s : State) : Except Refusal Word :=
  if i < 32 then .ok (s.reg (BitVec.ofNat 5 i)) else .error (.registerIndexOutOfRange i)

/-- A harness access out of bounds records MemoryOutOfBounds with `stage = 3` and `index = pc` (R44). -/
def Harness.memoryError (a : Word) (s : State) : State := s.raise .memoryOutOfBounds s.pc a

/-- `write_mem(a, v)` (R44). -/
def Harness.writeMem (a v : Word) (s : State) : State :=
  match s.memWrite a v with
  | some t => t
  | none => Harness.memoryError a s

/-- `write_mem` for a list of (address, word) pairs, in list order (R131(3)). -/
def Harness.presetMem (pairs : List (Word × Word)) (s : State) : State :=
  pairs.foldl (fun t p => Harness.writeMem p.1 p.2 t) s

/-- `read_mem(a)` (R44): the word and the unchanged state, or no value and the error recorded. -/
def Harness.readMem (a : Word) (s : State) : Option Word × State :=
  match s.memRead a with
  | some v => (some v, s)
  | none => (none, Harness.memoryError a s)

/-- The setup before the first clock edge, in the order of R131: the hardware in its reset state, the
parameters, the Program, `INIT_REGS`, optional memory presets. -/
def Harness.setup (mode : PcinMode) (policy : FatalPolicy) (p : List Word)
    (initRegs : List (Nat × Word)) (initMem : List (Word × Word)) :
    Host.Outcome State Fault Refusal :=
  match Harness.installProgram p { State.reset with pcinMode := mode, fatalPolicy := policy } with
  | .next s => .next (Harness.presetMem initMem (Harness.applyInitRegs initRegs s))
  | .fault r => .fault r
  | .refused r => .refused r

end Sys2Proof.Machine
end

