-- ==== Sys2Proof/Safety.lean ====
section
/-! DEFINITION. What a run is, when it has gone wrong, and the invariant of the machine. -/

namespace Sys2Proof.Machine

/-- A run of `n` rising clock edges (`N_EDGES = n`; spec/40_pipeline_and_dispatch.md R71). A halted
machine takes the remaining edges without change (R70), so the final state is that of the run's end. -/
def runEdges (n : Nat) (s : State) : Host.Outcome State Fault Refusal := Sys2Proof.core.run n s

/-- "A run whose `FSR.faulted` is 1 at its end has gone wrong, whichever policy is in force" (R71). -/
def goneWrong (s : State) : Bool := s.fsr.faulted

/-- The legal values of `FSR` under a policy (spec/10_state.md R19, spec/60_exceptions.md R110, R116). -/
structure FsrLegal (policy : FatalPolicy) (f : Fsr) : Prop where
  /-- Nothing is recorded before the first error. -/
  clear : f.faulted = false → f = Fsr.clear
  /-- Every error has been counted. -/
  counted : f.faulted = true → 0 < f.count
  /-- The code is one of the four. -/
  code : f.faulted = true → 1 ≤ f.code.toNat ∧ f.code.toNat ≤ 4
  /-- Only Fetch raises code 1; Execute and the harness raise the others with stage 3. -/
  stage : f.faulted = true → f.stage = if f.code = 1 then 1 else 3
  /-- For code 2 the address is out of bounds, otherwise 0. -/
  addr : if f.code = 2 then memWords ≤ f.addr.toNat else f.addr = 0
  /-- The machine is halted exactly when an error was raised under `halt`. -/
  halted : f.halted = (f.faulted && decide (policy = .halt))

/-- The invariant of the machine: it holds after every setup and every step keeps it. -/
structure Inv (s : State) : Prop where
  /-- Data memory keeps its canonical form. -/
  memWf : s.mem.wf = true
  /-- `PROG_LEN <= 2^32 - 1` (R5). -/
  programBound : s.program.length < progLenBound
  /-- The decoded-field signals are copies of `instr` (R48). -/
  decodedCopies : s.decoded = s.instr
  /-- The immediate signal is that of `instr` (R49). -/
  immediateCopies : s.immediate = immediateOf s.instr.rt s.instr.rd
  /-- `FSR` holds legal values (R19). -/
  fsrLegal : FsrLegal s.fatalPolicy s.fsr
  /-- Without an error `pc` is at most `PROG_LEN`: it has only been incremented past a fetch (R15). -/
  pcWithin : s.fsr.faulted = false → s.pc.toNat ≤ s.program.length
  /-- With `PCIN_MODE = next` an instruction that is not taken leaves `pc_out = pc` (R62). -/
  nextPc : s.pcinMode = .next → s.branchTaken = false → s.pcOut = s.pc
  /-- An instruction that redirects control leaves `result = 0` (R69). -/
  takenResult : s.branchTaken = true → s.result = 0

end Sys2Proof.Machine
end

