-- ==== Sys2Proof/Certificates/Slice0/Obligations.lean ====
section
/-! DEFINITION. The statements for the provers. Each docstring names the rules of the spec it
formalises. A statement with basis 'derived' says which decision of the spec or which log entry it rests
on. No statement is about a program. -/

open Sys2Proof Sys2Proof.Machine

namespace Sys2Proof.Claims

/-! ## The words the statements share -/

/-- The fields of a packed word (R46). -/
abbrev wOpcode (w : Word) : BitVec 6 := w.extractLsb' 26 6
abbrev wRs (w : Word) : RegNum := w.extractLsb' 21 5
abbrev wRt (w : Word) : RegNum := w.extractLsb' 16 5
abbrev wRd (w : Word) : BitVec 5 := w.extractLsb' 11 5
abbrev wShamt (w : Word) : BitVec 5 := w.extractLsb' 6 5
abbrev wFunct (w : Word) : BitVec 6 := w.extractLsb' 0 6

/-- Every register is unchanged. -/
abbrev SameRegs (s t : State) : Prop := ∀ r : RegNum, t.reg r = s.reg r

/-- Every register but `d` is unchanged. -/
abbrev SameRegsBut (d : RegNum) (s t : State) : Prop := ∀ r : RegNum, r ≠ d → t.reg r = s.reg r

/-- Every word of data memory reads as before. -/
abbrev SameMem (s t : State) : Prop := ∀ a : Nat, t.word a = s.word a

/-- The Program and the two open parameters are unchanged. -/
abbrev SameParameters (s t : State) : Prop :=
  t.program = s.program ∧ t.pcinMode = s.pcinMode ∧ t.fatalPolicy = s.fatalPolicy

/-- Everything the Execute stage reads but never drives is unchanged: the program counter, the signals
of Fetch and Decode, the Program and the parameters. -/
abbrev SameInputs (s t : State) : Prop :=
  t.pc = s.pc ∧ t.instr = s.instr ∧ t.opcode = s.opcode ∧ t.rs = s.rs ∧ t.rt = s.rt ∧ t.rd = s.rd ∧
    t.shamt = s.shamt ∧ t.funct = s.funct ∧ t.immediate = s.immediate ∧ t.pcIn = s.pcIn ∧
    SameParameters s t

/-- The three output ports. -/
abbrev Outputs (t : State) (res : Word) (taken : Bool) (npc : Word) : Prop :=
  t.result = res ∧ t.branchTaken = taken ∧ t.pcOut = npc

/-- The index the next fetch uses: `pc_out` when `branch_taken = 1`, else `pc`. -/
abbrev fetchAt (s : State) : Word := if s.branchTaken then s.pcOut else s.pc

/-- The next step of `s` fetches the word `w` from index `f`. -/
abbrev Fetches (s : State) (f w : Word) : Prop :=
  s.fsr.halted = false ∧ f = fetchAt s ∧ s.program[f.toNat]? = some w

/-- The value on `pc_in` for the instruction fetched from index `f` (R63). -/
abbrev pcInFor (s : State) (f : Word) : Word := if s.pcinMode = .next then f + 1#32 else f

/-- `s` after a successful fetch of `w` from `f` and the Decode stage, before the Execute stage. -/
def afterDecode (s : State) (f w : Word) : State :=
  { s with
    instr := ⟨wOpcode w, wRs w, wRt w, wRd w, wShamt w, wFunct w⟩
    pc := f + 1#32
    pcIn := pcInFor s f
    opcode := wOpcode w
    rs := wRs w
    rt := wRt w
    rd := wRd w
    shamt := wShamt w
    funct := wFunct w
    immediate := ((wRt w).setWidth 32 <<< 16) ||| (wRd w).setWidth 32 }

/-- The immediate of a word fetched from the Program: `rt * 65536 + rd`. -/
abbrev pipelineImmediate (w : Word) : Word :=
  BitVec.ofNat 32 ((wRt w).toNat * 65536 + (wRd w).toNat)

/-- The effective address of an LW or SW word fetched from the Program (R96). -/
abbrev pipelineAddress (s : State) (w : Word) : Word := s.reg (wRs w) + pipelineImmediate w

/-- The rule of an R-type instruction: its words, its outputs, and that nothing else changes. -/
abbrev RTypeRule (pattern : Word) (mk : RegNum → RegNum → BitVec 5 → BitVec 5 → Instr)
    (value : Word → Word → Word) : Prop :=
  (∀ w : Word, w &&& 0xFC00003F#32 = pattern ↔
    decodeWord w = .ok (mk (wRs w) (wRt w) (wRd w) (wShamt w))) ∧
  ∀ (rs rt : RegNum) (rd shamt : BitVec 5) (s : State), ∃ t, exec (mk rs rt rd shamt) s = .next t ∧
    Outputs t (value (s.reg rs) (s.reg rt)) false s.pcIn ∧
    SameRegs s t ∧ SameMem s t ∧ t.fsr = s.fsr ∧ SameInputs s t

/-- The words of an instruction selected by its opcode alone. -/
abbrev OpcodeWords (pattern : Word)
    (mk : RegNum → RegNum → BitVec 5 → BitVec 5 → BitVec 6 → Instr) : Prop :=
  ∀ w : Word, w &&& 0xFC000000#32 = pattern ↔
    decodeWord w = .ok (mk (wRs w) (wRt w) (wRd w) (wShamt w) (wFunct w))

/-- The masks and patterns of spec/opcode_table.json, in the table's order. -/
def tableRows : List (Word × Word) :=
  [(0xFC00003F#32, 0x00000020#32), (0xFC00003F#32, 0x00000022#32), (0xFC00003F#32, 0x00000024#32),
   (0xFC00003F#32, 0x00000025#32), (0xFC00003F#32, 0x0000002A#32), (0xFC000000#32, 0x20000000#32),
   (0xFC000000#32, 0x8C000000#32), (0xFC000000#32, 0xAC000000#32), (0xFC000000#32, 0x10000000#32),
   (0xFC000000#32, 0x14000000#32), (0xFC000000#32, 0x08000000#32)]

/-- The seven supported opcodes (R53) and the five supported function codes (R54). -/
abbrev supportedOpcodes : List (BitVec 6) := [0x00#6, 0x02#6, 0x04#6, 0x05#6, 0x08#6, 0x23#6, 0x2B#6]
abbrev supportedFuncts : List (BitVec 6) := [0x20#6, 0x22#6, 0x24#6, 0x25#6, 0x2A#6]

/-- The branch or jump word `w`, fetched in state `s`, redirects control. -/
abbrev Redirects (s : State) (w : Word) : Prop :=
  (wOpcode w = 0x04#6 ∧ s.reg (wRs w) = s.reg (wRt w)) ∨
    (wOpcode w = 0x05#6 ∧ s.reg (wRs w) ≠ s.reg (wRt w)) ∨ wOpcode w = 0x02#6

/-- The state that survives from one step to the next (R24): all but the held values of `instr`, the
decoded fields, `pc_in` and `result`. -/
abbrev SameCore (s t : State) : Prop :=
  t.regs = s.regs ∧ t.mem = s.mem ∧ t.pc = s.pc ∧ t.branchTaken = s.branchTaken ∧
    t.pcOut = s.pcOut ∧ t.fsr = s.fsr ∧ SameParameters s t

/-- Two words of one instruction that agree on every field the instruction uses (R56). -/
abbrev SameUsedFields (w w' : Word) : Prop :=
  wOpcode w = wOpcode w' ∧
    (wOpcode w = 0x00#6 → wRs w = wRs w' ∧ wRt w = wRt w' ∧ wFunct w = wFunct w') ∧
    (wOpcode w = 0x02#6 → wRt w = wRt w' ∧ wRd w = wRd w') ∧
    (wOpcode w ≠ 0x00#6 ∧ wOpcode w ≠ 0x02#6 → wRs w = wRs w' ∧ wRt w = wRt w' ∧ wRd w = wRd w')

/-- The architectural effect of a step: registers, memory, program counter, output ports, errors. -/
abbrev SameEffect (t t' : State) : Prop :=
  t'.regs = t.regs ∧ t'.mem = t.mem ∧ t'.pc = t.pc ∧ t'.result = t.result ∧
    t'.branchTaken = t.branchTaken ∧ t'.pcOut = t.pcOut ∧ t'.fsr = t.fsr

end Sys2Proof.Claims

open Sys2Proof.Claims

/-! ## Encoding and decoding -/

/-- Decoding the word of an instruction gives the instruction back, every field included
(30_encoding.md sections 1 and 4; the packed layout is the spec's decision D2). -/
def Obligations.DecodeOfEncodeIsInstr : Prop := ∀ i : Instr, decodeWord (encodeWord i) = .ok i

/-- Each supported word has one meaning: encoding what it decodes to gives the word back
(30_encoding.md sections 1 and 4; decision D2). -/
def Obligations.EncodeOfDecodedIsWord : Prop :=
  ∀ (w : Word) (i : Instr), decodeWord w = .ok i → encodeWord i = w

/-- The packed layout, and that packing and unpacking are inverse bijections (30_encoding.md R46, the
spec's decision D2). -/
def Obligations.PackUnpackInverse : Prop :=
  (∀ f : Fields, pack f =
    (f.opcode.setWidth 32 <<< 26) ||| (f.rs.setWidth 32 <<< 21) ||| (f.rt.setWidth 32 <<< 16) |||
      (f.rd.setWidth 32 <<< 11) ||| (f.shamt.setWidth 32 <<< 6) ||| f.funct.setWidth 32) ∧
  (∀ f : Fields, unpack (pack f) = f) ∧ (∀ w : Word, pack (unpack w) = w)

/-- Primary dispatch on `opcode` and, for 0x00 only, secondary dispatch on `funct`; every other value is
unsupported (R53, R54). -/
def Obligations.DispatchFollowsTheMaps : Prop :=
  ∀ f : Fields,
    (f.opcode = 0x00#6 → f.funct = 0x20#6 → decode f = .ok (.add f.rs f.rt f.rd f.shamt)) ∧
    (f.opcode = 0x00#6 → f.funct = 0x22#6 → decode f = .ok (.sub f.rs f.rt f.rd f.shamt)) ∧
    (f.opcode = 0x00#6 → f.funct = 0x24#6 → decode f = .ok (.and f.rs f.rt f.rd f.shamt)) ∧
    (f.opcode = 0x00#6 → f.funct = 0x25#6 → decode f = .ok (.or f.rs f.rt f.rd f.shamt)) ∧
    (f.opcode = 0x00#6 → f.funct = 0x2A#6 → decode f = .ok (.slt f.rs f.rt f.rd f.shamt)) ∧
    (f.opcode = 0x00#6 → f.funct ∉ supportedFuncts → decode f = .error (.unsupportedFunct f.funct)) ∧
    (f.opcode = 0x02#6 → decode f = .ok (.j f.rs f.rt f.rd f.shamt f.funct)) ∧
    (f.opcode = 0x04#6 → decode f = .ok (.beq f.rs f.rt f.rd f.shamt f.funct)) ∧
    (f.opcode = 0x05#6 → decode f = .ok (.bne f.rs f.rt f.rd f.shamt f.funct)) ∧
    (f.opcode = 0x08#6 → decode f = .ok (.addi f.rs f.rt f.rd f.shamt f.funct)) ∧
    (f.opcode = 0x23#6 → decode f = .ok (.lw f.rs f.rt f.rd f.shamt f.funct)) ∧
    (f.opcode = 0x2B#6 → decode f = .ok (.sw f.rs f.rt f.rd f.shamt f.funct)) ∧
    (f.opcode ∉ supportedOpcodes → decode f = .error (.unsupportedOpcode f.opcode))

/-- A word is an instruction exactly when it matches a row of the opcode table, exactly when its record
passes the well-formedness check, and no word matches two rows (opcode_table.json; 30_encoding.md
sections 4 and 5). -/
def Obligations.SupportedWordsAreTheTableRows : Prop :=
  (∀ w : Word, (∃ i, decodeWord w = .ok i) ↔ ∃ r ∈ tableRows, w &&& r.1 = r.2) ∧
  (∀ w : Word, (∃ i, decodeWord w = .ok i) ↔ fieldsWf (unpack w) = true) ∧
  (∀ w : Word, tableRows.Pairwise fun r q => ¬(w &&& r.1 = r.2 ∧ w &&& q.1 = q.2))

/-- Words written out from the spec's encodings decode to the instructions they stand for
(95_test_vectors.md; decision D2). -/
def Obligations.WordsOfTheSpecDecode : Prop :=
  decodeWord 0x00221820#32 = .ok (.add 1 2 3 0) ∧
  decodeWord 0x00E05022#32 = .ok (.sub 7 0 10 0) ∧
  decodeWord 0x0007582A#32 = .ok (.slt 0 7 11 0) ∧
  decodeWord 0x20222800#32 = .ok (.addi 1 2 5 0 0) ∧
  decodeWord 0x8C441800#32 = .ok (.lw 2 4 3 0 0) ∧
  decodeWord 0xAC251800#32 = .ok (.sw 1 5 3 0 0) ∧
  decodeWord 0x14E00000#32 = .ok (.bne 7 0 0 0 0) ∧
  decodeWord 0x08011000#32 = .ok (.j 0 1 2 0 0) ∧
  decodeWord 0x00000000#32 = .error (.unsupportedFunct 0) ∧
  decodeWord 0x04000000#32 = .error (.unsupportedOpcode 1)

/-- The Decode stage: identity copies of the six fields, and the immediate, whose bits 20 to 16 are
`word[20:16]`, whose bits 4 to 0 are `word[15:11]` and whose other bits are 0, for every word; nothing
else changes (R48, R49). -/
def Obligations.DecodeStageCopiesAndPacks : Prop :=
  ∀ (s : State) (w : Word), s.instr = unpack w →
    let t := s.decodeStage
    t.opcode = s.instr.opcode ∧ t.rs = s.instr.rs ∧ t.rt = s.instr.rt ∧ t.rd = s.instr.rd ∧
    t.shamt = s.instr.shamt ∧ t.funct = s.instr.funct ∧
    t.immediate = (s.instr.rt.setWidth 32 <<< 16) ||| s.instr.rd.setWidth 32 ∧
    (∀ k : Nat, k < 5 → t.immediate.getLsbD k = w.getLsbD (k + 11)) ∧
    (∀ k : Nat, 16 ≤ k → k ≤ 20 → t.immediate.getLsbD k = w.getLsbD k) ∧
    (∀ k : Nat, 5 ≤ k → k ≤ 15 ∨ 21 ≤ k → t.immediate.getLsbD k = false) ∧
    SameRegs s t ∧ SameMem s t ∧ t.pc = s.pc ∧ t.instr = s.instr ∧ t.pcIn = s.pcIn ∧
    Outputs t s.result s.branchTaken s.pcOut ∧ t.fsr = s.fsr ∧ SameParameters s t

/-- Through the pipeline the immediate is `rt * 65536 + rd`, and `sign_extend16` is the identity on it
(30_encoding.md R50 and R52, which the spec derives). -/
def Obligations.PipelineImmediateRange : Prop :=
  ∀ (rt : RegNum) (rd : BitVec 5),
    (immediateOf rt rd).toNat = rt.toNat * 65536 + rd.toNat ∧
    (immediateOf rt rd).getLsbD 15 = false ∧
    signExtend16 (immediateOf rt rd) = immediateOf rt rd

/-- `sign_extend16` as the spec defines it: bits 15 to 0 unchanged, bits 31 to 16 all 1 when bit 15 is
set and unchanged otherwise; and it is ordinary sign extension of the low half exactly when bits 31 to
16 are 0 or bit 15 is set (30_encoding.md R51). -/
def Obligations.SignExtend16Rule : Prop :=
  ∀ v : Word,
    (v.getLsbD 15 = true → signExtend16 v = v ||| 0xFFFF0000#32) ∧
    (v.getLsbD 15 = false → signExtend16 v = v) ∧
    (∀ k : Nat, k < 16 → (signExtend16 v).getLsbD k = v.getLsbD k) ∧
    (∀ k : Nat, 16 ≤ k → k < 32 →
      (signExtend16 v).getLsbD k = (v.getLsbD 15 || v.getLsbD k)) ∧
    (signExtend16 v = (v.extractLsb' 0 16).signExtend 32 ↔
      v.extractLsb' 16 16 = 0#16 ∨ v.getLsbD 15 = true)

/-! ## The eleven instructions, at the Execute stage's ports -/

/-- ADD (41_rtype_alu.md, ADD; that the sum wraps modulo 2^32 is the spec's decision D3). -/
def Obligations.AddRule : Prop :=
  RTypeRule 0x00000020#32 .add fun a b => BitVec.ofNat 32 ((a.toNat + b.toNat) % 2 ^ 32)

/-- SUB (41_rtype_alu.md, SUB; that the difference wraps modulo 2^32 is the spec's decision D3). -/
def Obligations.SubRule : Prop :=
  RTypeRule 0x00000022#32 .sub fun a b => BitVec.ofInt 32 ((a.toNat - b.toNat : Int) % 2 ^ 32)

/-- AND (R83), bit by bit. -/
def Obligations.AndRule : Prop :=
  RTypeRule 0x00000024#32 .and (fun a b => a &&& b) ∧
  ∀ (a b : Word) (k : Nat), (a &&& b).getLsbD k = (a.getLsbD k && b.getLsbD k)

/-- OR (R84), bit by bit. -/
def Obligations.OrRule : Prop :=
  RTypeRule 0x00000025#32 .or (fun a b => a ||| b) ∧
  ∀ (a b : Word) (k : Nat), (a ||| b).getLsbD k = (a.getLsbD k || b.getLsbD k)

/-- SLT (R85): `signed(v)` is `v` when bit 31 is 0 and `v - 2^32` when it is 1 (R6). -/
def Obligations.SltRule : Prop :=
  RTypeRule 0x0000002A#32 .slt fun a b =>
    let signed : Word → Int := fun v => if v.getLsbD 31 then (v.toNat : Int) - 2 ^ 32 else v.toNat
    if signed a < signed b then 1#32 else 0#32

/-- ADDI (R90), for any value on the immediate port and every `rt` including 0: `x[rt]` and `result`
are the sum, every other register and all of memory are unchanged, and nothing is raised. -/
def Obligations.AddiRule : Prop :=
  OpcodeWords 0x20000000#32 .addi ∧
  ∀ (rs rt : RegNum) (rd shamt : BitVec 5) (funct : BitVec 6) (s : State), ∃ t,
    exec (.addi rs rt rd shamt funct) s = .next t ∧
    let res := BitVec.ofNat 32 (((s.reg rs).toNat + (signExtend16 s.immediate).toNat) % 2 ^ 32)
    t.reg rt = res ∧ Outputs t res false s.pcIn ∧
    SameRegsBut rt s t ∧ SameMem s t ∧ t.fsr = s.fsr ∧ SameInputs s t

/-- LW (R94), for any value on the immediate port. That the error stands in `FSR` is the spec's decision
D10, no part of R94. -/
def Obligations.LwRule : Prop :=
  OpcodeWords 0x8C000000#32 .lw ∧
  ∀ (rs rt : RegNum) (rd shamt : BitVec 5) (funct : BitVec 6) (s : State),
    let addr := s.effectiveAddress rs
    addr.toNat = ((s.reg rs).toNat + (signExtend16 s.immediate).toNat) % 2 ^ 32 ∧
    (addr.toNat < 1024 → ∃ t, exec (.lw rs rt rd shamt funct) s = .next t ∧
      t.reg rt = s.word addr.toNat ∧ Outputs t (s.word addr.toNat) false s.pcIn ∧
      SameRegsBut rt s t ∧ SameMem s t ∧ t.fsr = s.fsr ∧ SameInputs s t) ∧
    (1024 ≤ addr.toNat → ∃ t, exec (.lw rs rt rd shamt funct) s = .next t ∧
      (∃ index, t.fsr = recordFault s.fsr .memoryOutOfBounds index addr s.fatalPolicy) ∧
      Outputs t 0 false s.pcIn ∧ SameRegs s t ∧ SameMem s t ∧ SameInputs s t)

/-- SW (R95), for any value on the immediate port. The stored word is the one at
`s.effectiveAddress rs`; that it reads back needs memory in its canonical form (log 1). That the error
stands in `FSR` is the spec's decision D10, no part of R95. -/
def Obligations.SwRule : Prop :=
  OpcodeWords 0xAC000000#32 .sw ∧
  ∀ (rs rt : RegNum) (rd shamt : BitVec 5) (funct : BitVec 6) (s : State),
    let addr := s.effectiveAddress rs
    addr.toNat = ((s.reg rs).toNat + (signExtend16 s.immediate).toNat) % 2 ^ 32 ∧
    (addr.toNat < 1024 → ∃ t, exec (.sw rs rt rd shamt funct) s = .next t ∧
      (s.mem.wf = true → t.word addr.toNat = s.reg rt) ∧
      (∀ a : Nat, a ≠ addr.toNat → t.word a = s.word a) ∧
      Outputs t 0 false s.pcIn ∧ SameRegs s t ∧ t.fsr = s.fsr ∧ SameInputs s t) ∧
    (1024 ≤ addr.toNat → ∃ t, exec (.sw rs rt rd shamt funct) s = .next t ∧
      (∃ index, t.fsr = recordFault s.fsr .memoryOutOfBounds index addr s.fatalPolicy) ∧
      Outputs t 0 false s.pcIn ∧ SameRegs s t ∧ SameMem s t ∧ SameInputs s t)

/-- BEQ (R101), for any values on the immediate and `pc_in` ports. -/
def Obligations.BeqRule : Prop :=
  OpcodeWords 0x10000000#32 .beq ∧
  ∀ (rs rt : RegNum) (rd shamt : BitVec 5) (funct : BitVec 6) (s : State), ∃ t,
    exec (.beq rs rt rd shamt funct) s = .next t ∧
    (s.reg rs = s.reg rt → Outputs t 0 true
      (BitVec.ofInt 32 (s.pcIn.toNat + 4 * (signExtend16 s.immediate).toNat - 4))) ∧
    (s.reg rs ≠ s.reg rt → Outputs t 0 false s.pcIn) ∧
    SameRegs s t ∧ SameMem s t ∧ t.fsr = s.fsr ∧ SameInputs s t

/-- BNE (R102), for any values on the immediate and `pc_in` ports. -/
def Obligations.BneRule : Prop :=
  OpcodeWords 0x14000000#32 .bne ∧
  ∀ (rs rt : RegNum) (rd shamt : BitVec 5) (funct : BitVec 6) (s : State), ∃ t,
    exec (.bne rs rt rd shamt funct) s = .next t ∧
    (s.reg rs ≠ s.reg rt → Outputs t 0 true
      (BitVec.ofInt 32 (s.pcIn.toNat + 4 * (signExtend16 s.immediate).toNat - 4))) ∧
    (s.reg rs = s.reg rt → Outputs t 0 false s.pcIn) ∧
    SameRegs s t ∧ SameMem s t ∧ t.fsr = s.fsr ∧ SameInputs s t

/-- J (R103), for any values on the immediate and `pc_in` ports: always taken, no sign extension, the
target not masked to 28 bits. -/
def Obligations.JRule : Prop :=
  OpcodeWords 0x08000000#32 .j ∧
  ∀ (rs rt : RegNum) (rd shamt : BitVec 5) (funct : BitVec 6) (s : State), ∃ t,
    exec (.j rs rt rd shamt funct) s = .next t ∧
    Outputs t 0 true ((BitVec.ofNat 32 ((s.pcIn.toNat + 4) % 2 ^ 32) &&& 0xF0000000#32) |||
      BitVec.ofNat 32 (4 * s.immediate.toNat % 2 ^ 32)) ∧
    SameRegs s t ∧ SameMem s t ∧ t.fsr = s.fsr ∧ SameInputs s t

/-- Two words that agree on every field their instruction uses have the same architectural effect when
fetched from the same place; the ignored fields reach only the signals (30_encoding.md R56, which the
spec derives). -/
def Obligations.IgnoredFieldsHaveNoEffect : Prop :=
  ∀ (s : State) (f w w' : Word), Fetches s f w → SameUsedFields w w' →
    ∃ t t', step s = .next t ∧ step { s with program := s.program.set f.toNat w' } = .next t' ∧
      SameEffect t t'

/-! ## Data memory -/

/-- The access primitives (20_memory.md R33): the bounds check, that a read gives the word at the
address, that a write changes exactly that word and keeps the canonical form (log 1). -/
def Obligations.MemoryPrimitives : Prop :=
  ∀ (s : State) (addr v : Word),
    (addr.toNat < 1024 → s.memRead addr = some (s.word addr.toNat)) ∧
    (1024 ≤ addr.toNat → s.memRead addr = none ∧ s.memWrite addr v = none) ∧
    (addr.toNat < 1024 → s.mem.wf = true → ∃ t, s.memWrite addr v = some t ∧
      t.memRead addr = some v ∧ t.mem.wf = true ∧
      (∀ a : Nat, a ≠ addr.toNat → t.word a = s.word a) ∧
      SameRegs s t ∧ SameInputs s t ∧ t.fsr = s.fsr ∧ Outputs t s.result s.branchTaken s.pcOut)

/-- "SW then LW at the same in-bounds address `A` returns the previously stored value; for any
`A ≥ 1024` both raise MemoryOutOfBounds and leave memory unchanged" (95_test_vectors.md S4;
20_memory.md section 2). The LW may come in any later state whose memory the SW left. -/
def Obligations.LoadAfterStore : Prop :=
  ∀ (s u : State) (rs rt rs' rt' : RegNum) (rd shamt rd' shamt' : BitVec 5) (fn fn' : BitVec 6),
    s.mem.wf = true → u.effectiveAddress rs' = s.effectiveAddress rs →
    ∃ t, exec (.sw rs rt rd shamt fn) s = .next t ∧
      ((s.effectiveAddress rs).toNat < 1024 → u.mem = t.mem →
        ∃ v, exec (.lw rs' rt' rd' shamt' fn') u = .next v ∧ v.reg rt' = s.reg rt ∧
          v.result = s.reg rt ∧ v.mem = t.mem ∧ t.fsr = s.fsr ∧ v.fsr = u.fsr) ∧
      (1024 ≤ (s.effectiveAddress rs).toNat →
        t.mem = s.mem ∧ t.fsr.count = s.fsr.count + 1 ∧
        ∃ v, exec (.lw rs' rt' rd' shamt' fn') u = .next v ∧ v.mem = u.mem ∧
          v.fsr.count = u.fsr.count + 1)

/-- Two memories in canonical form that read alike at every address are the same data (log 1, the
model's own form). -/
def Obligations.EqualReadsAreEqualMemories : Prop :=
  ∀ m m' : Memory, m.wf = true → m'.wf = true → (∀ a : Nat, memGet m a = memGet m' a) → m = m'

/-! ## The step -/

/-- When the word at the fetch index decodes to an instruction, the step is the evaluation of that
instruction in the state the fetch and the Decode stage leave: the record on `instr` and on the decoded
signals, the immediate, `pc` one past the fetch index, and `pc_in` by `PCIN_MODE`
(40_pipeline_and_dispatch.md R62 to R65 and R70; decisions D6, D7 and D8, logs 3, 13 and 14). -/
def Obligations.StepRunsTheDecodedInstruction : Prop :=
  ∀ (s : State) (f w : Word) (i : Instr), Fetches s f w → decodeWord w = .ok i →
    step s = exec i (afterDecode s f w)

/-- Every step answers a next state: no instruction, no word and no state stops the machine with a
fault or a refusal (40_pipeline_and_dispatch.md section 5; log 5 and log 6). -/
def Obligations.StepAlwaysAnswersNext : Prop := ∀ s : State, ∃ t, step s = .next t

/-- The program counter after a step: a halted machine keeps it; otherwise the override is applied, and
then it is incremented past a successful fetch and left alone by a failed one (10_state.md R15, R16;
40_pipeline_and_dispatch.md R62; decision D6, log 14; that a failed fetch keeps the override is log 9). -/
def Obligations.PcAfterStep : Prop :=
  ∀ s t : State, step s = .next t →
    (s.fsr.halted = true → t.pc = s.pc) ∧
    (s.fsr.halted = false → t.pc =
      if (fetchAt s).toNat < s.program.length then fetchAt s + 1#32 else fetchAt s)

/-- A register changes in a step only when the step fetched an ADDI, or an LW whose address is in
bounds, and the register is that instruction's `rt` (10_state.md R14). -/
def Obligations.RegistersWrittenOnlyByAddiLw : Prop :=
  ∀ s t : State, step s = .next t → ∀ r : RegNum, t.reg r ≠ s.reg r →
    ∃ f w, Fetches s f w ∧ r = wRt w ∧
      (wOpcode w = 0x08#6 ∨ (wOpcode w = 0x23#6 ∧ (pipelineAddress s w).toNat < 1024))

/-- A word of data memory changes in a step only when the step fetched an SW and the word is the one at
its effective address, which is in bounds (10_state.md R22; 20_memory.md R32 and R42). -/
def Obligations.MemoryWrittenOnlyBySw : Prop :=
  ∀ s t : State, step s = .next t → ∀ a : Nat, t.word a ≠ s.word a →
    ∃ f w, Fetches s f w ∧ wOpcode w = 0x2B#6 ∧ a = (pipelineAddress s w).toNat ∧ a < 1024

/-- No step changes the Program or the open parameters (10_state.md R10 and R21; 20_memory.md R42;
log 2). -/
def Obligations.ProgramAndParametersFixed : Prop :=
  ∀ s t : State, step s = .next t → SameParameters s t

/-- After an evaluation `branch_taken` is 1 exactly for a BEQ or BNE whose condition holds and for J, and
otherwise `pc_out` is the incoming program counter (40_pipeline_and_dispatch.md R66 and R69; its value is
that of R63, decision D7, log 3; which word is fetched is decision D6, log 14). -/
def Obligations.OnlyTransfersRedirect : Prop :=
  ∀ (s t : State) (f w : Word), Fetches s f w → step s = .next t →
    (t.branchTaken = true ↔ Redirects s w) ∧
    (t.branchTaken = false → t.pcOut = pcInFor s f)

/-- There is no delay slot: after a step that redirected control the next fetch is from `pc_out`, and
after one that did not it is from `pc` (44_branch_jump.md R104, which the spec derives from D6;
log 14). -/
def Obligations.NoDelaySlot : Prop :=
  ∀ (t : State) (w : Word), t.fsr.halted = false →
    (t.branchTaken = true → t.program[t.pcOut.toNat]? = some w →
      ∃ u, step t = .next u ∧ u.instr = unpack w ∧ u.pc = t.pcOut + 1#32) ∧
    (t.branchTaken = false → t.program[t.pc.toNat]? = some w →
      ∃ u, step t = .next u ∧ u.instr = unpack w ∧ u.pc = t.pc + 1#32)

/-- The index a taken branch leads to, in both modes, and the index a J leads to
(44_branch_jump.md R105, which the spec derives; decisions D6 and D7, logs 3 and 14). For a branch with
`rt` not 0 the example of R107 contradicts R105; that R105 holds is the model's reading (log 21). -/
def Obligations.TargetIndicesThroughThePipeline : Prop :=
  ∀ (s : State) (f w : Word), Fetches s f w →
    (Redirects s w → wOpcode w ≠ 0x02#6 → ∃ t, step s = .next t ∧ t.branchTaken = true ∧
      (s.pcinMode = .next → fetchAt t = BitVec.ofInt 32
        (f.toNat + (wRt w).toNat * 262144 + 4 * (wRd w).toNat - 3)) ∧
      (s.pcinMode = .current → fetchAt t = BitVec.ofInt 32
        (f.toNat + (wRt w).toNat * 262144 + 4 * (wRd w).toNat - 4))) ∧
    (wOpcode w = 0x02#6 → (pcInFor s f).toNat + 4 < 2 ^ 28 → ∃ t, step s = .next t ∧
      t.branchTaken = true ∧ (fetchAt t).toNat = (wRt w).toNat * 262144 + 4 * (wRd w).toNat)

/-- An ADDI fetched from the Program computes `x[rs] + rt * 65536 + rd` modulo 2^32
(42_addi.md R92, which the spec derives; decision D3). -/
def Obligations.AddiThroughThePipeline : Prop :=
  ∀ (s : State) (f w : Word), Fetches s f w → wOpcode w = 0x08#6 →
    ∃ t, step s = .next t ∧
      (t.reg (wRt w)).toNat =
        ((s.reg (wRs w)).toNat + (wRt w).toNat * 65536 + (wRd w).toNat) % 2 ^ 32 ∧
      t.result = t.reg (wRt w) ∧ SameRegsBut (wRt w) s t ∧ SameMem s t ∧ t.fsr = s.fsr ∧
      t.branchTaken = false ∧ t.pc = f + 1#32

/-- An LW or SW fetched from the Program uses the address `x[rs] + rt * 65536 + rd` modulo 2^32
(43_load_store.md R96, which the spec derives; decisions D3 and D11). -/
def Obligations.LoadStoreThroughThePipeline : Prop :=
  ∀ (s : State) (f w : Word), Fetches s f w → s.mem.wf = true →
    let a := ((s.reg (wRs w)).toNat + (wRt w).toNat * 65536 + (wRd w).toNat) % 2 ^ 32
    (wOpcode w = 0x23#6 → a < 1024 → ∃ t, step s = .next t ∧
      t.reg (wRt w) = s.word a ∧ t.result = s.word a ∧ SameRegsBut (wRt w) s t ∧ SameMem s t ∧
      t.fsr = s.fsr ∧ t.pc = f + 1#32) ∧
    (wOpcode w = 0x2B#6 → a < 1024 → ∃ t, step s = .next t ∧
      t.word a = s.reg (wRt w) ∧ (∀ b : Nat, b ≠ a → t.word b = s.word b) ∧ t.result = 0 ∧
      SameRegs s t ∧ t.fsr = s.fsr ∧ t.pc = f + 1#32)

/-! ## Fatal errors -/

/-- `raise` (60_exceptions.md R110 and R116; the record, its codes and the policy are the spec's
decisions D9 and D10): every error is counted, only the first is recorded in full, `halted` is set
under `halt`, and nothing but `FSR` changes. -/
def Obligations.RaiseRecordsTheFirstError : Prop :=
  ∀ (s : State) (e : Fault) (index addr : Word),
    let t := s.raise e index addr
    t = { s with fsr := t.fsr } ∧ t.fsr.faulted = true ∧ t.fsr.count = s.fsr.count + 1 ∧
    (t.fsr.halted = true ↔ s.fsr.halted = true ∨ s.fatalPolicy = .halt) ∧
    (s.fsr.faulted = false → t.fsr.index = index ∧ t.fsr.addr = addr ∧
      t.fsr.code = (match e with
        | .fetchOutOfBounds => 1 | .memoryOutOfBounds => 2
        | .unsupportedOpcode => 3 | .unsupportedFunct => 4) ∧
      t.fsr.stage = (match e with
        | .fetchOutOfBounds => 1 | .memoryOutOfBounds => 3
        | .unsupportedOpcode => 3 | .unsupportedFunct => 3)) ∧
    (s.fsr.faulted = true → t.fsr.code = s.fsr.code ∧ t.fsr.stage = s.fsr.stage ∧
      t.fsr.index = s.fsr.index ∧ t.fsr.addr = s.fsr.addr)

/-- FetchOutOfBounds (60_exceptions.md R111): raised when the program counter, after the override of
decision D6 (log 14), is not below `PROG_LEN`; `instr`, `pc_in` and the decoded signals keep their
values, `pc` is not incremented, and no register, memory word or output port changes. That `pc` keeps the
override is log 9. That the error stands in `FSR` is decision D10. -/
def Obligations.FetchOutOfBoundsRule : Prop :=
  ∀ s : State, s.fsr.halted = false → s.program.length ≤ (fetchAt s).toNat →
    ∃ t, step s = .next t ∧ t.pc = fetchAt s ∧
      (∃ index addr, t.fsr = recordFault s.fsr .fetchOutOfBounds index addr s.fatalPolicy) ∧
      SameRegs s t ∧ SameMem s t ∧ Outputs t s.result s.branchTaken s.pcOut ∧ t.instr = s.instr ∧
      t.decoded = s.decoded ∧ t.immediate = s.immediate ∧ t.pcIn = s.pcIn ∧ SameParameters s t

/-- MemoryOutOfBounds (R112): an LW or SW whose address is 1024 or more writes no register and no memory
word, leaves the outputs at their defaults, and `pc` stays incremented. That the error stands in `FSR`
is the spec's decision D10, no part of R112. -/
def Obligations.MemoryOutOfBoundsRule : Prop :=
  ∀ (s : State) (f w : Word), Fetches s f w → wOpcode w = 0x23#6 ∨ wOpcode w = 0x2B#6 →
    1024 ≤ (pipelineAddress s w).toNat →
    ∃ t, step s = .next t ∧ t.pc = f + 1#32 ∧ Outputs t 0 false t.pcIn ∧
      (∃ index, t.fsr =
        recordFault s.fsr .memoryOutOfBounds index (pipelineAddress s w) s.fatalPolicy) ∧
      SameRegs s t ∧ SameMem s t ∧ SameParameters s t

/-- UnsupportedOpcode (R113): every word whose `opcode` is none of the seven. That the error stands in
`FSR` is the spec's decision D10, no part of R113. -/
def Obligations.UnsupportedOpcodeRule : Prop :=
  ∀ (s : State) (f w : Word), Fetches s f w → wOpcode w ∉ supportedOpcodes →
    ∃ t, step s = .next t ∧ Outputs t 0 false t.pcIn ∧
      (∃ index addr, t.fsr = recordFault s.fsr .unsupportedOpcode index addr s.fatalPolicy) ∧
      SameRegs s t ∧ SameMem s t ∧ SameParameters s t

/-- UnsupportedFunct (R114): every word with `opcode = 0x00` whose `funct` is none of the five, the
all-zero word among them. That the error stands in `FSR` is the spec's decision D10, no part of R114. -/
def Obligations.UnsupportedFunctRule : Prop :=
  (∀ (s : State) (f w : Word), Fetches s f w → wOpcode w = 0x00#6 → wFunct w ∉ supportedFuncts →
    ∃ t, step s = .next t ∧ Outputs t 0 false t.pcIn ∧
      (∃ index addr, t.fsr = recordFault s.fsr .unsupportedFunct index addr s.fatalPolicy) ∧
      SameRegs s t ∧ SameMem s t ∧ SameParameters s t) ∧
  (wOpcode 0#32 = 0x00#6 ∧ wFunct 0#32 ∉ supportedFuncts)

/-- What the first error of the Execute stage records: stage 3, the fetch index, the code of the error
the word deserves, and for MemoryOutOfBounds the address (60_exceptions.md R110; decision D10, and
log 7 for the fetch index). -/
def Obligations.ExecuteErrorsRecordTheFetchIndex : Prop :=
  ∀ (s t : State) (f w : Word), Fetches s f w → step s = .next t →
    s.fsr.faulted = false → t.fsr.faulted = true →
    t.fsr.stage = 3 ∧ t.fsr.index = f ∧ t.fsr.count = s.fsr.count + 1 ∧
    (t.fsr.halted = true ↔ s.fatalPolicy = .halt) ∧
    (t.fsr.code = 2 ↔ wOpcode w = 0x23#6 ∨ wOpcode w = 0x2B#6) ∧
    (t.fsr.code = 2 → t.fsr.addr = pipelineAddress s w ∧ 1024 ≤ t.fsr.addr.toNat) ∧
    (t.fsr.code = 3 ↔ wOpcode w ∉ supportedOpcodes) ∧
    (t.fsr.code = 4 ↔ wOpcode w = 0x00#6) ∧
    (t.fsr.code ≠ 2 → t.fsr.addr = 0)

/-- At most one error is raised in a step, `FSR.faulted` is sticky, and what the first error recorded is
never changed (10_state.md R19; 60_exceptions.md R116 and R119; decision D10). -/
def Obligations.FirstErrorIsKept : Prop :=
  ∀ s t : State, step s = .next t →
    (t.fsr.count = s.fsr.count ∨ t.fsr.count = s.fsr.count + 1) ∧
    (t.fsr.count = s.fsr.count → t.fsr = s.fsr) ∧
    (s.fsr.faulted = true → t.fsr.faulted = true ∧ t.fsr.code = s.fsr.code ∧
      t.fsr.stage = s.fsr.stage ∧ t.fsr.index = s.fsr.index ∧ t.fsr.addr = s.fsr.addr)

/-- Errors are precise: a step that raises one writes no register and no memory word; after a successful
fetch the output ports hold the defaults, after a failed one they are unchanged (60_exceptions.md R115,
which the spec derives). Three clauses rest on more than R115: the fetch index, on decision D6 (log 14;
40_pipeline_and_dispatch.md R62); that after a failed fetch `pc` is that index, on log 9, the model's
reading of R73; and the value on `pc_out` after a successful one, on R63 and decision D7 (log 3). -/
def Obligations.ErrorsArePrecise : Prop :=
  ∀ s t : State, step s = .next t → t.fsr.count ≠ s.fsr.count →
    SameRegs s t ∧ SameMem s t ∧ SameParameters s t ∧
    ((fetchAt s).toNat < s.program.length →
      Outputs t 0 false (pcInFor s (fetchAt s)) ∧ t.pc = fetchAt s + 1#32) ∧
    (s.program.length ≤ (fetchAt s).toNat →
      Outputs t s.result s.branchTaken s.pcOut ∧ t.pc = fetchAt s ∧ t.instr = s.instr)

/-- A halted machine never changes, for however many edges (10_state.md R19 and
40_pipeline_and_dispatch.md R70; decisions D9 and D10, log 5). -/
def Obligations.HaltedMachineNeverChanges : Prop :=
  ∀ (n : Nat) (s : State), s.fsr.halted = true → runEdges n s = .next s

/-- Under `halt` the step that raises an error is the last that changes anything
(60_exceptions.md R116; decision D9). -/
def Obligations.HaltPolicyEndsTheRun : Prop :=
  ∀ (n : Nat) (s t : State), s.fatalPolicy = .halt → step s = .next t →
    t.fsr.count ≠ s.fsr.count → runEdges (n + 1) s = .next t

/-- Under `continue` a fetch that fails fails at every later edge, for ever: the override is applied
again with the same `pc_out`, the error is counted again, and nothing else changes
(40_pipeline_and_dispatch.md R73, which the spec derives; decisions D6, D9 and D10; that `pc` keeps the
override is log 9). -/
def Obligations.FailedFetchRepeatsForEver : Prop :=
  ∀ (n : Nat) (s : State), s.fatalPolicy = .continue → s.fsr.halted = false →
    s.program.length ≤ (fetchAt s).toNat →
    runEdges (n + 1) s = .next { s with
      pc := fetchAt s
      fsr := { recordFault s.fsr .fetchOutOfBounds (fetchAt s) 0 .continue with
        count := s.fsr.count + n + 1 } }

/-! ## The whole machine -/

/-- The invariant of the machine holds after reset (10_state.md R25; decisions D4, D5 and D10). -/
def Obligations.ResetHasTheInvariant : Prop := Inv State.reset

/-- Every step keeps the invariant: canonical memory, the bound on the Program, the decoded signals
copies of `instr`, legal `FSR` values, `pc` within the Program while nothing has been raised, `pc_out`
equal to `pc` after an instruction not taken with `PCIN_MODE = next`, and `result = 0` after a redirect
(10_state.md R15, R19, R22; 30_encoding.md R48, R49; 40_pipeline_and_dispatch.md R62, R69). -/
def Obligations.StepKeepsTheInvariant : Prop :=
  ∀ s t : State, Inv s → step s = .next t → Inv t

/-- A run keeps the invariant for any number of edges, and always reaches a state. -/
def Obligations.RunKeepsTheInvariant : Prop :=
  ∀ (n : Nat) (s : State), Inv s → ∃ t, runEdges n s = .next t ∧ Inv t

/-- With `PCIN_MODE = next`, applying the override at every edge, taken or not, would fetch from the
same index (40_pipeline_and_dispatch.md R62, which the spec derives). -/
def Obligations.UnconditionalOverrideIsTheSame : Prop :=
  ∀ s : State, Inv s → s.pcinMode = .next → fetchAt s = s.pcOut

/-- After reset every register, every memory word, `pc`, every signal and port is 0 and `FSR` is clear;
the parameters have their defaults (10_state.md R25; zero registers, memory and `instr` are the
source's, the rest the spec's decisions D4, D5, D7, D9 and D10, log 10; the empty Program is log 11). -/
def Obligations.ResetValues : Prop :=
  let s := State.reset
  (∀ r : RegNum, s.reg r = 0) ∧ (∀ a : Nat, s.word a = 0) ∧ s.pc = 0 ∧
  s.instr = ⟨0, 0, 0, 0, 0, 0⟩ ∧ s.decoded = ⟨0, 0, 0, 0, 0, 0⟩ ∧ s.immediate = 0 ∧ s.pcIn = 0 ∧
  Outputs s 0 false 0 ∧ s.fsr = ⟨false, false, 0, 0, 0, 0, 0⟩ ∧ s.program = [] ∧
  s.pcinMode = .next ∧ s.fatalPolicy = .halt

/-- The held values of `instr`, the decoded fields, `pc_in` and `result` do not matter: two states alike
in everything else take the same step when the fetch succeeds (10_state.md R24). -/
def Obligations.HeldSignalsDoNotMatter : Prop :=
  ∀ (s t : State) (f w : Word), SameCore s t → Fetches s f w → step t = step s

/-- Runs from two states alike in all but those held values end in states alike in all but them, with
the same registers and memory (10_state.md R24 and R29; 40_pipeline_and_dispatch.md R75). -/
def Obligations.RunsFromAlikeStatesAgree : Prop :=
  ∀ (n : Nat) (s t : State), SameCore s t →
    ∃ s' t', runEdges n s = .next s' ∧ runEdges n t = .next t' ∧ SameCore s' t'

/-- `FSR` is invisible to instructions: under `continue`, steps from two states that differ only in
`FSR` end in states that differ at most in `FSR` (10_state.md R18; decision D10). -/
def Obligations.FsrIsInvisible : Prop :=
  ∀ (s : State) (g : Fsr), s.fatalPolicy = .continue → s.fsr.halted = false → g.halted = false →
    ∃ t h, step s = .next t ∧ step { s with fsr := g } = .next { t with fsr := h }

/-! ## The harness -/

/-- `set_reg` writes registers 1 to 31 only and raises nothing, pairs are applied in order so that a
later one wins, and `get_reg` reads any of the 32 and refuses other indices (10_state.md R26; the
refusal is decision D17). -/
def Obligations.RegisterAccessors : Prop :=
  ∀ (s : State) (i : Nat) (v : Word),
    (1 ≤ i → i ≤ 31 → Harness.getReg i (Harness.setReg i v s) = .ok v) ∧
    (∀ j : Nat, j ≠ i → Harness.getReg j (Harness.setReg i v s) = Harness.getReg j s) ∧
    (i = 0 ∨ 32 ≤ i → Harness.setReg i v s = s) ∧
    ({ Harness.setReg i v s with regs := s.regs } = s) ∧
    (∀ pairs : List (Nat × Word), 1 ≤ i → i ≤ 31 →
      Harness.getReg i (Harness.applyInitRegs (pairs ++ [(i, v)]) s) = .ok v) ∧
    (i < 32 → Harness.getReg i s = .ok (s.reg (BitVec.ofNat 5 i))) ∧
    (32 ≤ i → Harness.getReg i s = .error (.registerIndexOutOfRange i))

/-- `write_mem` and `read_mem` have the bounds check of LW and SW, and out of bounds record
MemoryOutOfBounds with `index = pc` (20_memory.md R44; decisions D10 and D17). -/
def Obligations.MemoryAccessors : Prop :=
  ∀ (s : State) (a v : Word),
    (a.toNat < 1024 → s.mem.wf = true →
      (Harness.readMem a (Harness.writeMem a v s)).1 = some v ∧
      (Harness.writeMem a v s).fsr = s.fsr ∧
      (∀ b : Nat, b ≠ a.toNat → (Harness.writeMem a v s).word b = s.word b)) ∧
    (a.toNat < 1024 → Harness.readMem a s = (some (s.word a.toNat), s)) ∧
    (1024 ≤ a.toNat →
      Harness.writeMem a v s =
        { s with fsr := recordFault s.fsr .memoryOutOfBounds s.pc a s.fatalPolicy } ∧
      Harness.readMem a s =
        (none, { s with fsr := recordFault s.fsr .memoryOutOfBounds s.pc a s.fatalPolicy }))

/-- Setup accepts exactly the Programs shorter than 2^32; what it leaves has the invariant, the given
Program and parameters, `pc = 0`, and `x[0] = 0` whatever the register list says
(70_reset_and_hazards.md R131; decisions D4, D14, D20 and D21). -/
def Obligations.SetupHasTheInvariant : Prop :=
  ∀ (mode : PcinMode) (policy : FatalPolicy) (p : List Word) (initRegs : List (Nat × Word))
    (initMem : List (Word × Word)),
    (p.length < 2 ^ 32 → ∃ s, Harness.setup mode policy p initRegs initMem = .next s ∧ Inv s ∧
      s.program = p ∧ s.pcinMode = mode ∧ s.fatalPolicy = policy ∧ s.pc = 0 ∧ s.reg 0 = 0) ∧
    (2 ^ 32 ≤ p.length → Harness.setup mode policy p initRegs initMem = .refused .programTooLong)
end

