-- ==== Sys2Proof/Laws/State.lean ====
section
/-! SUPPORT. One lemma per field per update of the state, all true by unfolding, so that no later proof
unfolds a record update. -/

namespace Sys2Proof.Machine

variable (s : State)


/-! ## writeReg -/

@[simp] theorem writeReg_regs (r : RegNum) (v : Word) :
    (s.writeReg r v).regs = s.regs.set r.toNat v r.isLt := rfl
@[simp] theorem writeReg_mem (r : RegNum) (v : Word) : (s.writeReg r v).mem = s.mem := rfl
@[simp] theorem writeReg_pc (r : RegNum) (v : Word) : (s.writeReg r v).pc = s.pc := rfl
@[simp] theorem writeReg_instr (r : RegNum) (v : Word) : (s.writeReg r v).instr = s.instr := rfl
@[simp] theorem writeReg_opcode (r : RegNum) (v : Word) : (s.writeReg r v).opcode = s.opcode := rfl
@[simp] theorem writeReg_rs (r : RegNum) (v : Word) : (s.writeReg r v).rs = s.rs := rfl
@[simp] theorem writeReg_rt (r : RegNum) (v : Word) : (s.writeReg r v).rt = s.rt := rfl
@[simp] theorem writeReg_rd (r : RegNum) (v : Word) : (s.writeReg r v).rd = s.rd := rfl
@[simp] theorem writeReg_shamt (r : RegNum) (v : Word) : (s.writeReg r v).shamt = s.shamt := rfl
@[simp] theorem writeReg_funct (r : RegNum) (v : Word) : (s.writeReg r v).funct = s.funct := rfl
@[simp] theorem writeReg_immediate (r : RegNum) (v : Word) :
    (s.writeReg r v).immediate = s.immediate := rfl
@[simp] theorem writeReg_pcIn (r : RegNum) (v : Word) : (s.writeReg r v).pcIn = s.pcIn := rfl
@[simp] theorem writeReg_result (r : RegNum) (v : Word) : (s.writeReg r v).result = s.result := rfl
@[simp] theorem writeReg_branchTaken (r : RegNum) (v : Word) :
    (s.writeReg r v).branchTaken = s.branchTaken := rfl
@[simp] theorem writeReg_pcOut (r : RegNum) (v : Word) : (s.writeReg r v).pcOut = s.pcOut := rfl
@[simp] theorem writeReg_fsr (r : RegNum) (v : Word) : (s.writeReg r v).fsr = s.fsr := rfl
@[simp] theorem writeReg_program (r : RegNum) (v : Word) :
    (s.writeReg r v).program = s.program := rfl
@[simp] theorem writeReg_pcinMode (r : RegNum) (v : Word) :
    (s.writeReg r v).pcinMode = s.pcinMode := rfl
@[simp] theorem writeReg_fatalPolicy (r : RegNum) (v : Word) :
    (s.writeReg r v).fatalPolicy = s.fatalPolicy := rfl

/-! ## writeWord -/

@[simp] theorem writeWord_regs (a : Nat) (v : Word) : (s.writeWord a v).regs = s.regs := rfl
@[simp] theorem writeWord_mem (a : Nat) (v : Word) : (s.writeWord a v).mem = memPut s.mem a v := rfl
@[simp] theorem writeWord_pc (a : Nat) (v : Word) : (s.writeWord a v).pc = s.pc := rfl
@[simp] theorem writeWord_instr (a : Nat) (v : Word) : (s.writeWord a v).instr = s.instr := rfl
@[simp] theorem writeWord_opcode (a : Nat) (v : Word) : (s.writeWord a v).opcode = s.opcode := rfl
@[simp] theorem writeWord_rs (a : Nat) (v : Word) : (s.writeWord a v).rs = s.rs := rfl
@[simp] theorem writeWord_rt (a : Nat) (v : Word) : (s.writeWord a v).rt = s.rt := rfl
@[simp] theorem writeWord_rd (a : Nat) (v : Word) : (s.writeWord a v).rd = s.rd := rfl
@[simp] theorem writeWord_shamt (a : Nat) (v : Word) : (s.writeWord a v).shamt = s.shamt := rfl
@[simp] theorem writeWord_funct (a : Nat) (v : Word) : (s.writeWord a v).funct = s.funct := rfl
@[simp] theorem writeWord_immediate (a : Nat) (v : Word) :
    (s.writeWord a v).immediate = s.immediate := rfl
@[simp] theorem writeWord_pcIn (a : Nat) (v : Word) : (s.writeWord a v).pcIn = s.pcIn := rfl
@[simp] theorem writeWord_result (a : Nat) (v : Word) : (s.writeWord a v).result = s.result := rfl
@[simp] theorem writeWord_branchTaken (a : Nat) (v : Word) :
    (s.writeWord a v).branchTaken = s.branchTaken := rfl
@[simp] theorem writeWord_pcOut (a : Nat) (v : Word) : (s.writeWord a v).pcOut = s.pcOut := rfl
@[simp] theorem writeWord_fsr (a : Nat) (v : Word) : (s.writeWord a v).fsr = s.fsr := rfl
@[simp] theorem writeWord_program (a : Nat) (v : Word) :
    (s.writeWord a v).program = s.program := rfl
@[simp] theorem writeWord_pcinMode (a : Nat) (v : Word) :
    (s.writeWord a v).pcinMode = s.pcinMode := rfl
@[simp] theorem writeWord_fatalPolicy (a : Nat) (v : Word) :
    (s.writeWord a v).fatalPolicy = s.fatalPolicy := rfl

/-! ## drive -/

@[simp] theorem drive_regs (res : Word) (taken : Bool) (npc : Word) :
    (s.drive res taken npc).regs = s.regs := rfl
@[simp] theorem drive_mem (res : Word) (taken : Bool) (npc : Word) :
    (s.drive res taken npc).mem = s.mem := rfl
@[simp] theorem drive_pc (res : Word) (taken : Bool) (npc : Word) :
    (s.drive res taken npc).pc = s.pc := rfl
@[simp] theorem drive_instr (res : Word) (taken : Bool) (npc : Word) :
    (s.drive res taken npc).instr = s.instr := rfl
@[simp] theorem drive_opcode (res : Word) (taken : Bool) (npc : Word) :
    (s.drive res taken npc).opcode = s.opcode := rfl
@[simp] theorem drive_rs (res : Word) (taken : Bool) (npc : Word) :
    (s.drive res taken npc).rs = s.rs := rfl
@[simp] theorem drive_rt (res : Word) (taken : Bool) (npc : Word) :
    (s.drive res taken npc).rt = s.rt := rfl
@[simp] theorem drive_rd (res : Word) (taken : Bool) (npc : Word) :
    (s.drive res taken npc).rd = s.rd := rfl
@[simp] theorem drive_shamt (res : Word) (taken : Bool) (npc : Word) :
    (s.drive res taken npc).shamt = s.shamt := rfl
@[simp] theorem drive_funct (res : Word) (taken : Bool) (npc : Word) :
    (s.drive res taken npc).funct = s.funct := rfl
@[simp] theorem drive_immediate (res : Word) (taken : Bool) (npc : Word) :
    (s.drive res taken npc).immediate = s.immediate := rfl
@[simp] theorem drive_pcIn (res : Word) (taken : Bool) (npc : Word) :
    (s.drive res taken npc).pcIn = s.pcIn := rfl
@[simp] theorem drive_result (res : Word) (taken : Bool) (npc : Word) :
    (s.drive res taken npc).result = res := rfl
@[simp] theorem drive_branchTaken (res : Word) (taken : Bool) (npc : Word) :
    (s.drive res taken npc).branchTaken = taken := rfl
@[simp] theorem drive_pcOut (res : Word) (taken : Bool) (npc : Word) :
    (s.drive res taken npc).pcOut = npc := rfl
@[simp] theorem drive_fsr (res : Word) (taken : Bool) (npc : Word) :
    (s.drive res taken npc).fsr = s.fsr := rfl
@[simp] theorem drive_program (res : Word) (taken : Bool) (npc : Word) :
    (s.drive res taken npc).program = s.program := rfl
@[simp] theorem drive_pcinMode (res : Word) (taken : Bool) (npc : Word) :
    (s.drive res taken npc).pcinMode = s.pcinMode := rfl
@[simp] theorem drive_fatalPolicy (res : Word) (taken : Bool) (npc : Word) :
    (s.drive res taken npc).fatalPolicy = s.fatalPolicy := rfl

/-! ## decodeStage -/

@[simp] theorem decodeStage_regs : (s.decodeStage).regs = s.regs := rfl
@[simp] theorem decodeStage_mem : (s.decodeStage).mem = s.mem := rfl
@[simp] theorem decodeStage_pc : (s.decodeStage).pc = s.pc := rfl
@[simp] theorem decodeStage_instr : (s.decodeStage).instr = s.instr := rfl
@[simp] theorem decodeStage_opcode : (s.decodeStage).opcode = s.instr.opcode := rfl
@[simp] theorem decodeStage_rs : (s.decodeStage).rs = s.instr.rs := rfl
@[simp] theorem decodeStage_rt : (s.decodeStage).rt = s.instr.rt := rfl
@[simp] theorem decodeStage_rd : (s.decodeStage).rd = s.instr.rd := rfl
@[simp] theorem decodeStage_shamt : (s.decodeStage).shamt = s.instr.shamt := rfl
@[simp] theorem decodeStage_funct : (s.decodeStage).funct = s.instr.funct := rfl
@[simp] theorem decodeStage_immediate :
    (s.decodeStage).immediate = immediateOf s.instr.rt s.instr.rd := rfl
@[simp] theorem decodeStage_pcIn : (s.decodeStage).pcIn = s.pcIn := rfl
@[simp] theorem decodeStage_result : (s.decodeStage).result = s.result := rfl
@[simp] theorem decodeStage_branchTaken : (s.decodeStage).branchTaken = s.branchTaken := rfl
@[simp] theorem decodeStage_pcOut : (s.decodeStage).pcOut = s.pcOut := rfl
@[simp] theorem decodeStage_fsr : (s.decodeStage).fsr = s.fsr := rfl
@[simp] theorem decodeStage_program : (s.decodeStage).program = s.program := rfl
@[simp] theorem decodeStage_pcinMode : (s.decodeStage).pcinMode = s.pcinMode := rfl
@[simp] theorem decodeStage_fatalPolicy : (s.decodeStage).fatalPolicy = s.fatalPolicy := rfl

/-! ## raise -/

@[simp] theorem raise_regs (e : Fault) (index addr : Word) :
    (s.raise e index addr).regs = s.regs := rfl
@[simp] theorem raise_mem (e : Fault) (index addr : Word) :
    (s.raise e index addr).mem = s.mem := rfl
@[simp] theorem raise_pc (e : Fault) (index addr : Word) : (s.raise e index addr).pc = s.pc := rfl
@[simp] theorem raise_instr (e : Fault) (index addr : Word) :
    (s.raise e index addr).instr = s.instr := rfl
@[simp] theorem raise_opcode (e : Fault) (index addr : Word) :
    (s.raise e index addr).opcode = s.opcode := rfl
@[simp] theorem raise_rs (e : Fault) (index addr : Word) : (s.raise e index addr).rs = s.rs := rfl
@[simp] theorem raise_rt (e : Fault) (index addr : Word) : (s.raise e index addr).rt = s.rt := rfl
@[simp] theorem raise_rd (e : Fault) (index addr : Word) : (s.raise e index addr).rd = s.rd := rfl
@[simp] theorem raise_shamt (e : Fault) (index addr : Word) :
    (s.raise e index addr).shamt = s.shamt := rfl
@[simp] theorem raise_funct (e : Fault) (index addr : Word) :
    (s.raise e index addr).funct = s.funct := rfl
@[simp] theorem raise_immediate (e : Fault) (index addr : Word) :
    (s.raise e index addr).immediate = s.immediate := rfl
@[simp] theorem raise_pcIn (e : Fault) (index addr : Word) :
    (s.raise e index addr).pcIn = s.pcIn := rfl
@[simp] theorem raise_result (e : Fault) (index addr : Word) :
    (s.raise e index addr).result = s.result := rfl
@[simp] theorem raise_branchTaken (e : Fault) (index addr : Word) :
    (s.raise e index addr).branchTaken = s.branchTaken := rfl
@[simp] theorem raise_pcOut (e : Fault) (index addr : Word) :
    (s.raise e index addr).pcOut = s.pcOut := rfl
@[simp] theorem raise_fsr (e : Fault) (index addr : Word) :
    (s.raise e index addr).fsr = recordFault s.fsr e index addr s.fatalPolicy := rfl
@[simp] theorem raise_program (e : Fault) (index addr : Word) :
    (s.raise e index addr).program = s.program := rfl
@[simp] theorem raise_pcinMode (e : Fault) (index addr : Word) :
    (s.raise e index addr).pcinMode = s.pcinMode := rfl
@[simp] theorem raise_fatalPolicy (e : Fault) (index addr : Word) :
    (s.raise e index addr).fatalPolicy = s.fatalPolicy := rfl

/-! ## emit -/

@[simp] theorem emit_regs (f w : Word) : (s.emit f w).regs = s.regs := rfl
@[simp] theorem emit_mem (f w : Word) : (s.emit f w).mem = s.mem := rfl
@[simp] theorem emit_pc (f w : Word) : (s.emit f w).pc = f + 1#32 := rfl
@[simp] theorem emit_instr (f w : Word) : (s.emit f w).instr = unpack w := rfl
@[simp] theorem emit_opcode (f w : Word) : (s.emit f w).opcode = s.opcode := rfl
@[simp] theorem emit_rs (f w : Word) : (s.emit f w).rs = s.rs := rfl
@[simp] theorem emit_rt (f w : Word) : (s.emit f w).rt = s.rt := rfl
@[simp] theorem emit_rd (f w : Word) : (s.emit f w).rd = s.rd := rfl
@[simp] theorem emit_shamt (f w : Word) : (s.emit f w).shamt = s.shamt := rfl
@[simp] theorem emit_funct (f w : Word) : (s.emit f w).funct = s.funct := rfl
@[simp] theorem emit_immediate (f w : Word) : (s.emit f w).immediate = s.immediate := rfl
@[simp] theorem emit_pcIn (f w : Word) : (s.emit f w).pcIn = pcinValue s.pcinMode f := rfl
@[simp] theorem emit_result (f w : Word) : (s.emit f w).result = s.result := rfl
@[simp] theorem emit_branchTaken (f w : Word) : (s.emit f w).branchTaken = s.branchTaken := rfl
@[simp] theorem emit_pcOut (f w : Word) : (s.emit f w).pcOut = s.pcOut := rfl
@[simp] theorem emit_fsr (f w : Word) : (s.emit f w).fsr = s.fsr := rfl
@[simp] theorem emit_program (f w : Word) : (s.emit f w).program = s.program := rfl
@[simp] theorem emit_pcinMode (f w : Word) : (s.emit f w).pcinMode = s.pcinMode := rfl
@[simp] theorem emit_fatalPolicy (f w : Word) : (s.emit f w).fatalPolicy = s.fatalPolicy := rfl

/-! ## fetchFails -/

@[simp] theorem fetchFails_regs (f : Word) : (s.fetchFails f).regs = s.regs := rfl
@[simp] theorem fetchFails_mem (f : Word) : (s.fetchFails f).mem = s.mem := rfl
@[simp] theorem fetchFails_pc (f : Word) : (s.fetchFails f).pc = f := rfl
@[simp] theorem fetchFails_instr (f : Word) : (s.fetchFails f).instr = s.instr := rfl
@[simp] theorem fetchFails_opcode (f : Word) : (s.fetchFails f).opcode = s.opcode := rfl
@[simp] theorem fetchFails_rs (f : Word) : (s.fetchFails f).rs = s.rs := rfl
@[simp] theorem fetchFails_rt (f : Word) : (s.fetchFails f).rt = s.rt := rfl
@[simp] theorem fetchFails_rd (f : Word) : (s.fetchFails f).rd = s.rd := rfl
@[simp] theorem fetchFails_shamt (f : Word) : (s.fetchFails f).shamt = s.shamt := rfl
@[simp] theorem fetchFails_funct (f : Word) : (s.fetchFails f).funct = s.funct := rfl
@[simp] theorem fetchFails_immediate (f : Word) : (s.fetchFails f).immediate = s.immediate := rfl
@[simp] theorem fetchFails_pcIn (f : Word) : (s.fetchFails f).pcIn = s.pcIn := rfl
@[simp] theorem fetchFails_result (f : Word) : (s.fetchFails f).result = s.result := rfl
@[simp] theorem fetchFails_branchTaken (f : Word) :
    (s.fetchFails f).branchTaken = s.branchTaken := rfl
@[simp] theorem fetchFails_pcOut (f : Word) : (s.fetchFails f).pcOut = s.pcOut := rfl
@[simp] theorem fetchFails_fsr (f : Word) :
    (s.fetchFails f).fsr = recordFault s.fsr .fetchOutOfBounds f 0 s.fatalPolicy := rfl
@[simp] theorem fetchFails_program (f : Word) : (s.fetchFails f).program = s.program := rfl
@[simp] theorem fetchFails_pcinMode (f : Word) : (s.fetchFails f).pcinMode = s.pcinMode := rfl
@[simp] theorem fetchFails_fatalPolicy (f : Word) :
    (s.fetchFails f).fatalPolicy = s.fatalPolicy := rfl

/-! ## The updates made of other updates -/

theorem driveDefaults_eq : s.driveDefaults = s.drive 0 false s.pcIn := rfl

theorem driveResult_eq (res : Word) : s.driveResult res = s.drive res false s.pcIn := rfl

theorem executeError_eq (e : Fault) (addr : Word) :
    s.executeError e addr = (s.raise e (s.pc - 1#32) addr).drive 0 false s.pcIn := rfl

theorem ready_eq (f w : Word) : s.ready f w = (s.emit f w).decodeStage := rfl

/-! ## Reading registers and words after an update -/

@[simp] theorem reg_writeReg_same (r : RegNum) (v : Word) : (s.writeReg r v).reg r = v := by
  simp [State.reg]

theorem reg_writeReg_other (r r' : RegNum) (v : Word) (h : r' ≠ r) :
    (s.writeReg r v).reg r' = s.reg r' := by
  have hne : r.toNat ≠ r'.toNat := fun e => h (BitVec.eq_of_toNat_eq e.symm)
  simp [State.reg, hne]

@[simp] theorem word_writeReg (r : RegNum) (v : Word) (a : Nat) :
    (s.writeReg r v).word a = s.word a := rfl

@[simp] theorem reg_writeWord (a : Nat) (v : Word) (r : RegNum) :
    (s.writeWord a v).reg r = s.reg r := rfl

@[simp] theorem reg_drive (res : Word) (taken : Bool) (npc : Word) (r : RegNum) :
    (s.drive res taken npc).reg r = s.reg r := rfl

@[simp] theorem word_drive (res : Word) (taken : Bool) (npc : Word) (a : Nat) :
    (s.drive res taken npc).word a = s.word a := rfl

@[simp] theorem reg_decodeStage (r : RegNum) :
    (s.decodeStage).reg r = s.reg r := rfl

@[simp] theorem word_decodeStage (a : Nat) :
    (s.decodeStage).word a = s.word a := rfl

@[simp] theorem reg_raise (e : Fault) (index addr : Word) (r : RegNum) :
    (s.raise e index addr).reg r = s.reg r := rfl

@[simp] theorem word_raise (e : Fault) (index addr : Word) (a : Nat) :
    (s.raise e index addr).word a = s.word a := rfl

@[simp] theorem reg_emit (f w : Word) (r : RegNum) :
    (s.emit f w).reg r = s.reg r := rfl

@[simp] theorem word_emit (f w : Word) (a : Nat) :
    (s.emit f w).word a = s.word a := rfl

@[simp] theorem reg_fetchFails (f : Word) (r : RegNum) :
    (s.fetchFails f).reg r = s.reg r := rfl

@[simp] theorem word_fetchFails (f : Word) (a : Nat) :
    (s.fetchFails f).word a = s.word a := rfl

/-- The Decode stage copies the record it is given (R48). -/
@[simp] theorem decoded_decodeStage : s.decodeStage.decoded = s.instr := rfl

end Sys2Proof.Machine
end

