-- ==== Sys2Proof/Laws/Memory.lean ====
section
/-! SUPPORT. Data memory: a read after a write, and the canonical form that every memory operation
keeps. -/

namespace Sys2Proof.Machine

theorem memGet_memPut_same (m : Memory) (a : Nat) (v : Word) (lo : Nat) (h : memWfFrom lo m = true) :
    memGet (memPut m a v) a = v := by
  induction m generalizing lo with
  | nil =>
    unfold memPut
    split_ifs with hv
    · exact hv.symm
    · simp [memGet]
  | cons c m ih =>
    obtain ⟨b, w⟩ := c
    simp only [memWfFrom, Bool.and_eq_true, decide_eq_true_eq] at h
    have below : ∀ (n : Nat) (k : Memory), memWfFrom n k = true → a < n → memGet k a = memResetWord := by
      intro n k
      induction k generalizing n with
      | nil => intros; rfl
      | cons d k ihk =>
        obtain ⟨e, x⟩ := d
        intro hk hlt
        simp only [memWfFrom, Bool.and_eq_true, decide_eq_true_eq] at hk
        have : a ≠ e := by omega
        simpa [memGet, this] using ihk (e + 1) hk.2 (by omega)
    unfold memPut
    split_ifs with h1 h2 h3 h4
    · simpa [memGet, h2, show a ≠ b by omega] using below (b + 1) m h.2 (by omega)
    · simp [memGet]
    · simpa [h4] using below (b + 1) m h.2 (by omega)
    · simp [memGet]
    · simpa [memGet, h3] using ih (b + 1) h.2

/-- A write leaves every other word as it was. -/
theorem memGet_memPut_other (m : Memory) (a b : Nat) (v : Word) (h : b ≠ a) :
    memGet (memPut m a v) b = memGet m b := by
  induction m with
  | nil =>
    unfold memPut
    split_ifs
    · rfl
    · simp [memGet, h]
  | cons c m ih =>
    obtain ⟨e, w⟩ := c
    unfold memPut
    split_ifs with h1 h2 h3 h4
    · rfl
    · simp [memGet, h]
    · simp [memGet, show b ≠ e by omega]
    · simp [memGet, h, show b ≠ e by omega]
    · simp [memGet, ih]

theorem memPut_wfFrom (m : Memory) (lo a : Nat) (v : Word) (h : memWfFrom lo m = true)
    (hlo : lo ≤ a) (ha : a < memWords) : memWfFrom lo (memPut m a v) = true := by
  induction m generalizing lo with
  | nil => by_cases hv : v = memResetWord <;> simp_all [memPut, memWfFrom]
  | cons c m ih =>
    obtain ⟨b, w⟩ := c
    have h0 := h
    simp only [memWfFrom, Bool.and_eq_true, decide_eq_true_eq] at h
    obtain ⟨⟨⟨h1, h2⟩, h3⟩, h4⟩ := h
    have weaken : ∀ (n k : Nat) (q : Memory), memWfFrom n q = true → k ≤ n → memWfFrom k q = true := by
      intro n k q
      cases q with
      | nil => intros; rfl
      | cons d q =>
        obtain ⟨e, x⟩ := d
        intro hq hk
        simp only [memWfFrom, Bool.and_eq_true, decide_eq_true_eq] at hq ⊢
        exact ⟨⟨⟨by omega, hq.1.1.2⟩, hq.1.2⟩, hq.2⟩
    unfold memPut
    split_ifs with c1 c2 c3 c4
    · exact h0
    · simp only [memWfFrom, Bool.and_eq_true, decide_eq_true_eq]
      exact ⟨⟨⟨hlo, ha⟩, c2⟩, ⟨⟨⟨by omega, h2⟩, h3⟩, h4⟩⟩
    · exact weaken (b + 1) lo m h4 (by omega)
    · simp only [memWfFrom, Bool.and_eq_true, decide_eq_true_eq]
      exact ⟨⟨⟨hlo, ha⟩, c4⟩, by rw [c3]; exact h4⟩
    · simp only [memWfFrom, Bool.and_eq_true, decide_eq_true_eq]
      exact ⟨⟨⟨h1, h2⟩, h3⟩, ih (b + 1) h4 (by omega)⟩

/-- A write to an address that exists keeps the canonical form. -/
theorem memPut_wf (m : Memory) (a : Nat) (v : Word) (h : m.wf = true) (ha : a < memWords) :
    Memory.wf (memPut m a v) = true := memPut_wfFrom m 0 a v h (Nat.zero_le a) ha

/-- The memory after reset has the canonical form. -/
theorem reset_mem_wf : State.reset.mem.wf = true := rfl

theorem inBounds_iff (addr : Word) : inBounds addr = true ↔ addr.toNat < memWords := by
  simp [inBounds]

/-- All that `MemRead` can do (R33). -/
theorem memRead_cases (s : State) (addr : Word) :
    (addr.toNat < memWords ∧ s.memRead addr = some (s.word addr.toNat)) ∨
      (memWords ≤ addr.toNat ∧ s.memRead addr = none) := by
  by_cases h : addr.toNat < memWords
  · exact .inl ⟨h, by simp [State.memRead, inBounds, h]⟩
  · exact .inr ⟨by omega, by simp [State.memRead, inBounds, h]⟩

/-- All that `MemWrite` can do (R33). -/
theorem memWrite_cases (s : State) (addr v : Word) :
    (addr.toNat < memWords ∧ s.memWrite addr v = some (s.writeWord addr.toNat v)) ∨
      (memWords ≤ addr.toNat ∧ s.memWrite addr v = none) := by
  by_cases h : addr.toNat < memWords
  · exact .inl ⟨h, by simp [State.memWrite, inBounds, h]⟩
  · exact .inr ⟨by omega, by simp [State.memWrite, inBounds, h]⟩

/-- `MemWrite` keeps the canonical form (R33). -/
theorem memWrite_keeps_wf (s t : State) (addr v : Word) (hs : s.mem.wf = true)
    (h : s.memWrite addr v = some t) : t.mem.wf = true := by
  obtain ⟨ha, he⟩ | ⟨-, he⟩ := memWrite_cases s addr v
  · rw [he] at h
    cases h
    exact memPut_wf s.mem addr.toNat v hs ha
  · simp [he] at h

theorem word_writeWord_other (s : State) (a b : Nat) (v : Word) (h : b ≠ a) :
    (s.writeWord a v).word b = s.word b := memGet_memPut_other s.mem a b v h

theorem word_writeWord_same (s : State) (a : Nat) (v : Word) (h : s.mem.wf = true) :
    (s.writeWord a v).word a = v := memGet_memPut_same s.mem a v 0 h

end Sys2Proof.Machine
end

