-- ==== Sys2Proof/Laws/Exec.lean ====
section
/-! SUPPORT. What one evaluation of the Execute stage can do, said once: every frame and invariant is
read off `exec_cases`, and no later proof unfolds a meaning. -/

namespace Sys2Proof.Machine

/-- The register an instruction writes when it completes: ADDI and LW write `x[rt]` (R14). -/
def destination : Instr → Option RegNum
  | .add _ _ _ _ | .sub _ _ _ _ | .and _ _ _ _ | .or _ _ _ _ | .slt _ _ _ _ => none
  | .addi _ rt _ _ _ | .lw _ rt _ _ _ => some rt
  | .sw _ _ _ _ _ | .beq _ _ _ _ _ | .bne _ _ _ _ _ | .j _ _ _ _ _ => none

/-- The instruction is BEQ, BNE or J. -/
def isTransfer : Instr → Bool
  | .add _ _ _ _ | .sub _ _ _ _ | .and _ _ _ _ | .or _ _ _ _ | .slt _ _ _ _ => false
  | .addi _ _ _ _ _ | .lw _ _ _ _ _ | .sw _ _ _ _ _ => false
  | .beq _ _ _ _ _ | .bne _ _ _ _ _ | .j _ _ _ _ _ => true

/-- The whole effect of LW (R94). -/
theorem execLw_cases (rs rt : RegNum) (rd shamt : BitVec 5) (funct : BitVec 6) (s : State) :
    ((s.effectiveAddress rs).toNat < memWords ∧
      execLw rs rt rd shamt funct s =
        .next ((s.writeReg rt (s.word (s.effectiveAddress rs).toNat)).drive
          (s.word (s.effectiveAddress rs).toNat) false s.pcIn)) ∨
    (memWords ≤ (s.effectiveAddress rs).toNat ∧
      execLw rs rt rd shamt funct s =
        .next (s.executeError .memoryOutOfBounds (s.effectiveAddress rs))) := by
  obtain ⟨ha, he⟩ | ⟨ha, he⟩ := memRead_cases s (s.effectiveAddress rs)
  · exact .inl ⟨ha, by simp [execLw, he]⟩
  · exact .inr ⟨ha, by simp [execLw, he]⟩

/-- The whole effect of SW (R95). -/
theorem execSw_cases (rs rt : RegNum) (rd shamt : BitVec 5) (funct : BitVec 6) (s : State) :
    ((s.effectiveAddress rs).toNat < memWords ∧
      execSw rs rt rd shamt funct s =
        .next ((s.writeWord (s.effectiveAddress rs).toNat (s.reg rt)).drive 0 false s.pcIn)) ∨
    (memWords ≤ (s.effectiveAddress rs).toNat ∧
      execSw rs rt rd shamt funct s =
        .next (s.executeError .memoryOutOfBounds (s.effectiveAddress rs))) := by
  obtain ⟨ha, he⟩ | ⟨ha, he⟩ := memWrite_cases s (s.effectiveAddress rs) (s.reg rt)
  · exact .inl ⟨ha, by simp [execSw, he, driveDefaults_eq]⟩
  · exact .inr ⟨ha, by simp [execSw, he]⟩

/-- BEQ and BNE drive the target when their condition holds, and the default outputs otherwise. -/
theorem branchWhen_cases (s : State) (c : Bool) :
    (c = true ∧ s.branchWhen c = s.drive 0 true s.branchTarget) ∨
      (c = false ∧ s.branchWhen c = s.drive 0 false s.pcIn) := by
  cases c
  · exact .inr ⟨rfl, rfl⟩
  · exact .inl ⟨rfl, rfl⟩

/-- Everything an evaluation can do: drive outputs only; write a register and drive it; write a word;
redirect control; or raise MemoryOutOfBounds with no write. -/
theorem exec_cases (i : Instr) (s : State) :
    (∃ res, exec i s = .next (s.drive res false s.pcIn)) ∨
    (∃ rt v, destination i = some rt ∧
      exec i s = .next ((s.writeReg rt v).drive v false s.pcIn)) ∨
    (∃ rs rt rd shamt funct, i = .sw rs rt rd shamt funct ∧
      (s.effectiveAddress rs).toNat < memWords ∧
      exec i s =
        .next ((s.writeWord (s.effectiveAddress rs).toNat (s.reg rt)).drive 0 false s.pcIn)) ∨
    (∃ npc, isTransfer i = true ∧ exec i s = .next (s.drive 0 true npc)) ∨
    (∃ addr : Word, memWords ≤ addr.toNat ∧
      exec i s = .next (s.executeError .memoryOutOfBounds addr)) := by
  cases i with
  | add rs rt rd shamt => exact .inl ⟨_, rfl⟩
  | sub rs rt rd shamt => exact .inl ⟨_, rfl⟩
  | and rs rt rd shamt => exact .inl ⟨_, rfl⟩
  | or rs rt rd shamt => exact .inl ⟨_, rfl⟩
  | slt rs rt rd shamt => exact .inl ⟨_, rfl⟩
  | addi rs rt rd shamt funct => exact .inr (.inl ⟨rt, _, rfl, rfl⟩)
  | lw rs rt rd shamt funct =>
    obtain ⟨-, he⟩ | ⟨ha, he⟩ := execLw_cases rs rt rd shamt funct s
    · exact .inr (.inl ⟨rt, _, rfl, he⟩)
    · exact .inr (.inr (.inr (.inr ⟨_, ha, he⟩)))
  | sw rs rt rd shamt funct =>
    obtain ⟨ha, he⟩ | ⟨ha, he⟩ := execSw_cases rs rt rd shamt funct s
    · exact .inr (.inr (.inl ⟨rs, rt, rd, shamt, funct, rfl, ha, he⟩))
    · exact .inr (.inr (.inr (.inr ⟨_, ha, he⟩)))
  | beq rs rt rd shamt funct =>
    obtain ⟨-, he⟩ | ⟨-, he⟩ := branchWhen_cases s (branchIfEqual (s.reg rs) (s.reg rt))
    · exact .inr (.inr (.inr (.inl ⟨_, rfl, congrArg _ he⟩)))
    · exact .inl ⟨0, congrArg _ he⟩
  | bne rs rt rd shamt funct =>
    obtain ⟨-, he⟩ | ⟨-, he⟩ := branchWhen_cases s (branchIfNotEqual (s.reg rs) (s.reg rt))
    · exact .inr (.inr (.inr (.inl ⟨_, rfl, congrArg _ he⟩)))
    · exact .inl ⟨0, congrArg _ he⟩
  | j rs rt rd shamt funct => exact .inr (.inr (.inr (.inl ⟨_, rfl, rfl⟩)))

/-- What `raise` leaves in `FSR` (R116). -/
theorem recordFault_faulted (f : Fsr) (e : Fault) (index addr : Word) (p : FatalPolicy) :
    (recordFault f e index addr p).faulted = true := rfl

theorem recordFault_count (f : Fsr) (e : Fault) (index addr : Word) (p : FatalPolicy) :
    (recordFault f e index addr p).count = f.count + 1 := rfl

theorem recordFault_later (f : Fsr) (e : Fault) (index addr : Word) (p : FatalPolicy)
    (h : f.faulted = true) :
    recordFault f e index addr p =
      { f with halted := f.halted || decide (p = .halt), count := f.count + 1 } := by
  simp [recordFault, h]

theorem recordFault_first (f : Fsr) (e : Fault) (index addr : Word) (p : FatalPolicy)
    (h : f.faulted = false) :
    recordFault f e index addr p =
      ⟨true, f.halted || decide (p = .halt), faultCode e, faultStage e, index, addr, f.count + 1⟩ := by
  simp [recordFault, h]

end Sys2Proof.Machine
end

