-- ==== Sys2Proof/Laws/PerInstr.lean ====
section
/-! SUPPORT. Statements about every instruction as syntax, one lemma per constructor. -/

namespace Sys2Proof.Laws.RecordRoundTrip

/-- The record an instruction is encoded as passes the well-formedness check, and dispatch on its
`opcode` and `funct` gives the instruction back (R53, R54). -/
def Statement (i : Instr) : Prop := fieldsWf (encode i) = true ∧ decode (encode i) = .ok i

theorem add (rs rt : RegNum) (rd shamt : BitVec 5) : Statement (.add rs rt rd shamt) :=
  ⟨rfl, rfl⟩

theorem sub (rs rt : RegNum) (rd shamt : BitVec 5) : Statement (.sub rs rt rd shamt) :=
  ⟨rfl, rfl⟩

theorem and (rs rt : RegNum) (rd shamt : BitVec 5) : Statement (.and rs rt rd shamt) :=
  ⟨rfl, rfl⟩

theorem or (rs rt : RegNum) (rd shamt : BitVec 5) : Statement (.or rs rt rd shamt) :=
  ⟨rfl, rfl⟩

theorem slt (rs rt : RegNum) (rd shamt : BitVec 5) : Statement (.slt rs rt rd shamt) :=
  ⟨rfl, rfl⟩

theorem addi (rs rt : RegNum) (rd shamt : BitVec 5) (funct : BitVec 6) :
    Statement (.addi rs rt rd shamt funct) := ⟨rfl, rfl⟩

theorem lw (rs rt : RegNum) (rd shamt : BitVec 5) (funct : BitVec 6) :
    Statement (.lw rs rt rd shamt funct) := ⟨rfl, rfl⟩

theorem sw (rs rt : RegNum) (rd shamt : BitVec 5) (funct : BitVec 6) :
    Statement (.sw rs rt rd shamt funct) := ⟨rfl, rfl⟩

theorem beq (rs rt : RegNum) (rd shamt : BitVec 5) (funct : BitVec 6) :
    Statement (.beq rs rt rd shamt funct) := ⟨rfl, rfl⟩

theorem bne (rs rt : RegNum) (rd shamt : BitVec 5) (funct : BitVec 6) :
    Statement (.bne rs rt rd shamt funct) := ⟨rfl, rfl⟩

theorem j (rs rt : RegNum) (rd shamt : BitVec 5) (funct : BitVec 6) :
    Statement (.j rs rt rd shamt funct) := ⟨rfl, rfl⟩

end Sys2Proof.Laws.RecordRoundTrip
end

