-- ==== Sys2Proof/Laws/Run.lean ====
section
/-! SUPPORT. A run, one edge at a time (R71). -/

namespace Sys2Proof.Machine

/-- A run of no edge. -/
@[simp] theorem runEdges_zero (s : State) : runEdges 0 s = .next s := rfl

/-- A run whose first edge answers a next state. -/
theorem runEdges_succ (n : Nat) (s t : State) (h : step s = .next t) :
    runEdges (n + 1) s = runEdges n t := by
  have h' : Sys2Proof.core.step s = .next t := h
  simp only [runEdges, Host.Core.run, h']
  rfl

/-- A run may be cut at any edge. -/
theorem runEdges_add (m n : Nat) (s t : State) (h : runEdges m s = .next t) :
    runEdges (m + n) s = runEdges n t := by
  induction m generalizing s with
  | zero => simp_all
  | succ m ih =>
    rw [Nat.succ_add]
    cases hs : step s with
    | next u =>
      rw [runEdges_succ _ _ _ hs] at h ⊢
      exact ih u h
    | fault r =>
      have h' : Sys2Proof.core.step s = .fault r := hs
      simp [runEdges, Host.Core.run, h'] at h
    | refused r =>
      have h' : Sys2Proof.core.step s = .refused r := hs
      simp [runEdges, Host.Core.run, h'] at h

end Sys2Proof.Machine
end

