-- ==== Sys2Proof/Laws/Step.lean ====
section
/-! SUPPORT. What one step can do, said once (R70). -/

namespace Sys2Proof.Machine

/-- The Fetch stage succeeds exactly when the index it uses is below `PROG_LEN` (R62). -/
theorem fetchStage_cases (s : State) :
    (∃ w, s.programAt s.nextIndex = some w ∧ s.fetchStage = .fetched (s.emit s.nextIndex w)) ∨
      (s.programAt s.nextIndex = none ∧ s.fetchStage = .notFetched (s.fetchFails s.nextIndex)) := by
  cases h : s.programAt s.nextIndex with
  | some w => exact .inl ⟨w, rfl, by simp [State.fetchStage, h]⟩
  | none => exact .inr ⟨rfl, by simp [State.fetchStage, h]⟩

theorem programAt_none_iff (s : State) (f : Word) :
    s.programAt f = none ↔ s.program.length ≤ f.toNat := by
  simp [State.programAt]

theorem programAt_some_lt (s : State) (f w : Word) (h : s.programAt f = some w) :
    f.toNat < s.program.length := by
  obtain ⟨hlt, -⟩ := List.getElem?_eq_some_iff.mp h
  exact hlt

/-- A step of a halted machine. -/
theorem step_halted (s : State) (h : s.fsr.halted = true) : step s = .next s := by
  simp [step, h]

/-- A step whose fetch fails. -/
theorem step_fetchFails (s : State) (h : s.fsr.halted = false)
    (hw : s.programAt s.nextIndex = none) : step s = .next (s.fetchFails s.nextIndex) := by
  simp [step, h, State.fetchStage, hw]

/-- A step that fetches a word which is no instruction. -/
theorem step_unsupported (s : State) (w : Word) (e : DecodeError) (h : s.fsr.halted = false)
    (hw : s.programAt s.nextIndex = some w) (hd : decodeWord w = .error e) :
    step s = .next ((s.ready s.nextIndex w).executeUnsupported e) := by
  have hd' : decode (unpack w) = .error e := hd
  simp [step, h, State.fetchStage, hw, settle, hd', State.ready]

/-- A step that fetches an instruction. -/
theorem step_instruction (s : State) (w : Word) (i : Instr) (h : s.fsr.halted = false)
    (hw : s.programAt s.nextIndex = some w) (hd : decodeWord w = .ok i) :
    step s = exec i (s.ready s.nextIndex w) := by
  have hd' : decode (unpack w) = .ok i := hd
  simp [step, h, State.fetchStage, hw, settle, hd', State.ready]

/-- The four things a step can be. -/
theorem step_cases (s : State) :
    (s.fsr.halted = true ∧ step s = .next s) ∨
    (s.fsr.halted = false ∧ s.programAt s.nextIndex = none ∧
      step s = .next (s.fetchFails s.nextIndex)) ∨
    (∃ w e, s.fsr.halted = false ∧ s.programAt s.nextIndex = some w ∧ decodeWord w = .error e ∧
      step s = .next ((s.ready s.nextIndex w).executeUnsupported e)) ∨
    (∃ w i, s.fsr.halted = false ∧ s.programAt s.nextIndex = some w ∧ decodeWord w = .ok i ∧
      step s = exec i (s.ready s.nextIndex w)) := by
  cases h : s.fsr.halted with
  | true => exact .inl ⟨rfl, step_halted s h⟩
  | false =>
    cases hw : s.programAt s.nextIndex with
    | none => exact .inr (.inl ⟨rfl, rfl, step_fetchFails s h hw⟩)
    | some w =>
      cases hd : decodeWord w with
      | error e => exact .inr (.inr (.inl ⟨w, e, rfl, rfl, hd, step_unsupported s w e h hw hd⟩))
      | ok i => exact .inr (.inr (.inr ⟨w, i, rfl, rfl, hd, step_instruction s w i h hw hd⟩))

/-- The two ways a word is no instruction end in the same shape. -/
theorem executeUnsupported_cases (s : State) (e : DecodeError) :
    ∃ r, (r = Fault.unsupportedOpcode ∨ r = Fault.unsupportedFunct) ∧
      s.executeUnsupported e = s.executeError r 0 := by
  cases e with
  | unsupportedOpcode op => exact ⟨_, .inl rfl, rfl⟩
  | unsupportedFunct fn => exact ⟨_, .inr rfl, rfl⟩

/-- `placeWord` puts the word at its index. -/
theorem placeWord_get (p : List Word) (k : Nat) (w : Word) : (placeWord p k w)[k]? = some w := by
  induction k generalizing p with
  | zero => cases p <;> simp [placeWord]
  | succ k ih => cases p <;> simp [placeWord, ih]

/-- After `withFetchWord` the next step fetches the placed word. -/
theorem withFetchWord_fetches (s : State) (nbits w : Nat) :
    (s.withFetchWord nbits w).fsr.halted = false ∧
      (s.withFetchWord nbits w).programAt (s.withFetchWord nbits w).nextIndex =
        some (BitVec.ofNat 32 (w % 2 ^ nbits)) := by
  refine ⟨rfl, ?_⟩
  by_cases h : s.nextIndex = BitVec.allOnes 32
  · simp only [State.withFetchWord, h, if_true, State.programAt]
    exact placeWord_get _ _ _
  · simp only [State.withFetchWord, h, if_false, State.programAt]
    exact placeWord_get _ _ _

end Sys2Proof.Machine
end

