-- ==== Sys2Proof/Tests/Slice0.lean ====
section
/-! SUPPORT. Tests of the model on the spec's own vectors (spec/95_test_vectors.md, cited as V-… and S…),
and for every statement with hypotheses a concrete state that meets them, at the boundaries of its
clauses. -/

open Sys2Proof Sys2Proof.Machine Sys2Proof.Claims

namespace Sys2Proof.Tests

/-- The state an outcome answers. -/
def after (o : Host.Outcome State Fault Refusal) : State :=
  match o with
  | .next t => t
  | .fault _ => State.reset
  | .refused _ => State.reset

/-- The reset state with some registers, memory words and a Program. -/
def machine (regs : List (RegNum × Word)) (mem : List (Nat × Word)) (program : List Word) : State :=
  mem.foldl (fun s p => s.writeWord p.1 p.2)
    (regs.foldl (fun s p => s.writeReg p.1 p.2) { State.reset with program := program })

/-- The reset state with some registers and memory words and the Execute stage's two input ports. -/
def port (regs : List (RegNum × Word)) (mem : List (Nat × Word)) (imm pcIn : Word) : State :=
  { machine regs mem [] with immediate := imm, pcIn := pcIn }

/-! ## Well-formedness: each check refuses an ill-formed term -/

/-- ADD R3, R1, R2 as a record of numbers. -/
def rawAdd : RawFields := ⟨0x00, 1, 2, 3, 0, 0x20⟩

theorem test_wf_accepts_add : rawFieldsWf rawAdd = true := by decide
theorem test_wf_refuses_wide_opcode : rawFieldsWf { rawAdd with opcode := 64 } = false := by decide
theorem test_wf_refuses_wide_rs : rawFieldsWf { rawAdd with rs := 32 } = false := by decide
theorem test_wf_refuses_wide_rt : rawFieldsWf { rawAdd with rt := 32 } = false := by decide
theorem test_wf_refuses_wide_rd : rawFieldsWf { rawAdd with rd := 32 } = false := by decide
theorem test_wf_refuses_wide_shamt : rawFieldsWf { rawAdd with shamt := 32 } = false := by decide
theorem test_wf_refuses_wide_funct : rawFieldsWf { rawAdd with funct := 64 } = false := by decide
theorem test_wf_accepts_empty_program : programWf [] = true := by decide
theorem test_wf_refuses_long_program : programWf (List.replicate progLenBound 0) = false :=
  decide_eq_false (by rw [List.length_replicate]; exact Nat.lt_irrefl _)
theorem test_wf_refuses_opcode : fieldsWf (unpack 0x04000000#32) = false := by decide
theorem test_wf_refuses_funct : fieldsWf (unpack 0x00000000#32) = false := by decide

/-! ## Decoding: every constructor, from a word written out by the encoding of the spec -/

/-- V-RTYPE: `000000 00001 00010 00011 00000 100000`. -/
theorem test_decode_add : decodeWord 0x00221820#32 = .ok (.add 1 2 3 0) := by decide
/-- V-RTYPE: `000000 00111 00000 01010 00000 100010`. -/
theorem test_decode_sub : decodeWord 0x00E05022#32 = .ok (.sub 7 0 10 0) := by decide
/-- V-RTYPE: `000000 00001 00010 00011 00000 100100`. -/
theorem test_decode_and : decodeWord 0x00221824#32 = .ok (.and 1 2 3 0) := by decide
/-- V-RTYPE: `000000 00001 00010 00011 00000 100101`. -/
theorem test_decode_or : decodeWord 0x00221825#32 = .ok (.or 1 2 3 0) := by decide
/-- V-RTYPE: `000000 00000 00111 01011 00000 101010`. -/
theorem test_decode_slt : decodeWord 0x0007582A#32 = .ok (.slt 0 7 11 0) := by decide
/-- V-ADDI: `001000 00001 00010 00101 00000 000000`. -/
theorem test_decode_addi : decodeWord 0x20222800#32 = .ok (.addi 1 2 5 0 0) := by decide
/-- V-LWSW: `100011 00010 00100 00011 00000 000000`. -/
theorem test_decode_lw : decodeWord 0x8C441800#32 = .ok (.lw 2 4 3 0 0) := by decide
/-- V-LWSW: `101011 00001 00101 00011 00000 000000`. -/
theorem test_decode_sw : decodeWord 0xAC251800#32 = .ok (.sw 1 5 3 0 0) := by decide
/-- V-BRANCH: `000100 00111 00000 00010 00000 000000`. -/
theorem test_decode_beq : decodeWord 0x10E01000#32 = .ok (.beq 7 0 2 0 0) := by decide
/-- V-BRANCH: `000101 00111 00000 00000 00000 000000`. -/
theorem test_decode_bne : decodeWord 0x14E00000#32 = .ok (.bne 7 0 0 0 0) := by decide
/-- V-J: `000010 00000 00001 00010 00000 000000`. -/
theorem test_decode_j : decodeWord 0x08011000#32 = .ok (.j 0 1 2 0 0) := by decide
/-- V-RTYPE: `rd` 3 and `shamt` 31 are kept. -/
theorem test_decode_shamt : decodeWord 0x00221FE0#32 = .ok (.add 1 2 3 31) := by decide
/-- V-ERRORS. -/
theorem test_decode_refuses :
    decodeWord 0x00221821#32 = .error (.unsupportedFunct 0x21) ∧
      decodeWord 0x0000003F#32 = .error (.unsupportedFunct 0x3F) ∧
      decodeWord 0x24000000#32 = .error (.unsupportedOpcode 0x09) ∧
      decodeWord 0xFFFFFFFF#32 = .error (.unsupportedOpcode 0x3F) := by decide
/-- V-DECODE. -/
theorem test_decode_immediate :
    immediateOf 31 31 = 0x001F001F#32 ∧ immediateOf 2 3 = 0x00020003#32 ∧
      unpack 0x000110C0#32 = ⟨0, 0, 1, 2, 3, 0⟩ := by decide
/-- V-SIGNEXT. -/
theorem test_signExtend16 :
    signExtend16 0x00008000#32 = 0xFFFF8000#32 ∧ signExtend16 0x00007FFF#32 = 0x00007FFF#32 ∧
      signExtend16 0x12348765#32 = 0xFFFF8765#32 ∧ signExtend16 0x00020005#32 = 0x00020005#32 ∧
      signExtend16 0xFFFF7FFF#32 = 0xFFFF7FFF#32 := by decide

/-! ## One evaluation or one step per test -/

/-- V-RTYPE row 4. -/
theorem test_add_wraps :
    (after (exec (.add 1 2 3 0) (port [(1, 0x7FFFFFFF), (2, 1)] [] 0 9))).result = 0x80000000#32 := by
  decide
/-- V-RTYPE, no write-back: `x[3] = 99` stays. -/
theorem test_add_no_write_back :
    let t := after (step (machine [(1, 10), (2, 20), (3, 99)] [] [0x00221820#32]))
    t.result = 30#32 ∧ t.reg 3 = 99#32 := by decide
/-- V-RTYPE row 12345678. -/
theorem test_sub_order :
    (after (exec (.sub 1 2 3 0)
      (port [(1, 0x12345678), (2, 0x0F0F0F0F)] [] 0 9))).result = 0x03254769#32 := by decide
/-- V-RTYPE: SUB R3, R1, R2. -/
theorem test_sub_step :
    let t := after (step (machine [(1, 10), (2, 20), (3, 99)] [] [0x00221822#32]))
    t.result = 0xFFFFFFF6#32 ∧ t.reg 3 = 99#32 := by decide
/-- V-RTYPE row 12345678. -/
theorem test_and_bits :
    (after (exec (.and 1 2 3 0)
      (port [(1, 0x12345678), (2, 0x0F0F0F0F)] [] 0 9))).result = 0x02040608#32 := by decide
/-- V-RTYPE row 12345678. -/
theorem test_or_bits :
    (after (exec (.or 1 2 3 0)
      (port [(1, 0x12345678), (2, 0x0F0F0F0F)] [] 0 9))).result = 0x1F3F5F7F#32 := by decide
/-- V-RTYPE: most negative below most positive. -/
theorem test_slt_signed :
    (after (exec (.slt 1 2 3 0) (port [(1, 0x80000000), (2, 0x7FFFFFFF)] [] 0 9))).result = 1#32 := by
  decide
/-- V-RTYPE row 2: 1 < -1 is false. -/
theorem test_slt_not_unsigned :
    (after (exec (.slt 1 2 3 0) (port [(1, 1), (2, 0xFFFFFFFF)] [] 0 9))).result = 0#32 := by decide
/-- V-ADDI, port level: the immediate is sign extended. -/
theorem test_addi_sign_extends :
    let t := after (exec (.addi 1 2 0 0 0) (port [(1, 10)] [] 0x0000FFFF 9))
    t.reg 2 = 9#32 ∧ t.result = 9#32 ∧ t.pcOut = 9#32 := by decide
/-- V-ADDI, pipeline: source and destination the same, and the destination number in the immediate. -/
theorem test_addi_step :
    let t := after (step (machine [(3, 7)] [] [0x20630000#32]))
    t.reg 3 = 0x00030007#32 ∧ t.result = 0x00030007#32 := by decide
/-- V-LWSW: the wrapped sum is in bounds. -/
theorem test_lw_wraps :
    let t := after (step (machine [(2, 0xFFFC0064)] [(103, 0xDEADBEEF)] [0x8C441800#32]))
    t.reg 4 = 0xDEADBEEF#32 ∧ t.result = 0xDEADBEEF#32 := by decide
/-- V-LWSW: address 1024 is out of bounds. -/
theorem test_lw_out_of_bounds :
    let t := after (step (machine [(1, 993), (0, 5)] [] [0x8C20F800#32]))
    t.reg 0 = 5#32 ∧ t.result = 0#32 ∧ t.fsr = ⟨true, true, 2, 3, 0, 1024, 1⟩ := by decide
/-- V-LWSW: base and data in the same register. -/
theorem test_sw_base_is_data :
    let t := after (step (machine [(3, 0xFFFD0010)] [] [0xAC630000#32]))
    t.mem = [(16, 0xFFFD0010#32)] ∧ t.result = 0#32 := by decide
/-- V-LWSW: address 1024 is out of bounds. -/
theorem test_sw_out_of_bounds :
    let t := after (step (machine [(1, 1020), (0, 9)] [] [0xAC202000#32]))
    t.mem = [] ∧ t.fsr.code = 2#3 := by decide
/-- V-BRANCH, port level; and, pipeline, BEQ R1, R1, 0 at index 0, on which the spec's files differ
(log 21): `0x0003FFFD` as V-BRANCH has it, not the `0xFFFFFFFD` of R107's example. -/
theorem test_beq_target :
    let t := after (exec (.beq 1 2 0 0 0) (port [(1, 7), (2, 7)] [] 0x00008000 0x00020000))
    let u := after (step (machine [] [] [0x10210000#32]))
    t.branchTaken = true ∧ t.pcOut = 0xFFFFFFFC#32 ∧
      u.branchTaken = true ∧ u.pcOut = 0x0003FFFD#32 := by decide
/-- V-BRANCH, port level. -/
theorem test_beq_not_taken :
    let t := after (exec (.beq 1 2 0 0 0) (port [(1, 7), (2, 8)] [] 3 100))
    t.branchTaken = false ∧ t.pcOut = 100#32 := by decide
/-- V-BRANCH, port level: any differing bit. -/
theorem test_bne_target :
    let t := after (exec (.bne 1 2 0 0 0) (port [(1, 1), (2, 0x80000001)] [] 2 2))
    t.branchTaken = true ∧ t.pcOut = 6#32 := by decide
/-- V-BRANCH, port level. -/
theorem test_bne_not_taken :
    let t := after (exec (.bne 1 2 0 0 0) (port [(1, 7), (2, 7)] [] 3 100))
    t.branchTaken = false ∧ t.pcOut = 100#32 := by decide
/-- V-J, port level: the target's upper bits are ORed in. -/
theorem test_j_not_masked :
    let t := after (exec (.j 0 0 0 0 0) (port [] [] 0x0C000001 0x10000000))
    t.branchTaken = true ∧ t.pcOut = 0x30000004#32 := by decide
/-- V-J, pipeline. -/
theorem test_j_step : (after (step (machine [] [] [0x08011000#32]))).pcOut = 0x00040008#32 := by decide
/-- V-ERRORS: the all-zero word. -/
theorem test_unsupported_funct :
    let t := after (step (machine [] [] [0#32]))
    t.fsr = ⟨true, true, 4, 3, 0, 0, 1⟩ ∧ t.pc = 1#32 ∧ t.pcOut = 1#32 := by decide
/-- V-ERRORS. -/
theorem test_unsupported_opcode :
    let t := after (step (machine [] [] [0xFC000000#32]))
    t.fsr = ⟨true, true, 3, 3, 0, 0, 1⟩ ∧ t.pc = 1#32 ∧ t.pcOut = 1#32 := by decide
/-- V-ERRORS: the empty Program. -/
theorem test_fetch_out_of_bounds :
    let t := after (step State.reset)
    t.fsr = ⟨true, true, 1, 1, 0, 0, 1⟩ ∧ t.pc = 0#32 := by decide
/-- V-ERRORS: the edge after a branch out of the Program. -/
theorem test_branch_out_of_program :
    let t := after (step (after (step (machine [] [] [0x10000000#32]))))
    t.pc = 0xFFFFFFFD#32 ∧ t.fsr.index = 0xFFFFFFFD#32 ∧ t.branchTaken = true := by decide
/-- P3: BNE at index 3 goes to index 0 in the one mode, and the counter is one less in the other. -/
theorem test_pcin_modes :
    let s := { machine [(7, 3), (0, 1)] [] [0, 0, 0, 0x14E00000#32] with pc := 3 }
    (after (step s)).pcOut = 0#32 ∧
      (after (step { s with pcinMode := .current })).pcOut = 0xFFFFFFFF#32 := by decide
/-- V-SETREG. -/
theorem test_set_reg :
    Harness.setReg 0 0x12345678 State.reset = State.reset ∧
      Harness.setReg 32 1 State.reset = State.reset ∧
      (Harness.setReg 31 1 State.reset).reg 31 = 1#32 ∧
      (Harness.applyInitRegs [(5, 1), (5, 2)] State.reset).reg 5 = 2#32 := by decide
/-- V-SETREG. -/
theorem test_memory_accessors :
    (Harness.writeMem 1023 5 State.reset).word 1023 = 5#32 ∧
      (Harness.writeMem 1024 5 State.reset).mem = [] ∧
      (Harness.writeMem 1024 5 State.reset).fsr.code = 2#3 ∧
      (Harness.readMem 0 State.reset).1 = some 0#32 ∧
      (Harness.readMem 1024 State.reset).1 = none := by decide

/-! ## The first step after reset runs a placed word, for a word of every row -/

theorem test_withFetchWord_runs_add :
    step (State.reset.withFetchWord 32 0x00000020) =
      exec (.add 0 0 0 0) ((State.reset.withFetchWord 32 0x00000020).ready 0 0x00000020#32) := rfl
theorem test_decodeTableWord_rows :
    decodeTableWord 32 0x20 = some (.add 0 0 0 0) ∧ decodeTableWord 32 0x22 = some (.sub 0 0 0 0) ∧
      decodeTableWord 32 0x24 = some (.and 0 0 0 0) ∧ decodeTableWord 32 0x25 = some (.or 0 0 0 0) ∧
      decodeTableWord 32 0x2A = some (.slt 0 0 0 0) ∧
      decodeTableWord 32 0x20000000 = some (.addi 0 0 0 0 0) ∧
      decodeTableWord 32 0x8C000000 = some (.lw 0 0 0 0 0) ∧
      decodeTableWord 32 0xAC000000 = some (.sw 0 0 0 0 0) ∧
      decodeTableWord 32 0x10000000 = some (.beq 0 0 0 0 0) ∧
      decodeTableWord 32 0x14000000 = some (.bne 0 0 0 0 0) ∧
      decodeTableWord 32 0x08000000 = some (.j 0 0 0 0 0) ∧ decodeTableWord 32 0 = none := by decide

/-! ## Witnesses: the hypotheses of every statement that has some, met by concrete states -/

/-- ADDI R0, R0, 1 at the only index. -/
def sAddi : State := machine [] [] [0x20000800#32]
/-- SW R0, 31(R1) with `x[1] = 992`: address 1023. -/
def sStore : State := machine [(1, 992), (0, 9)] [] [0xAC20F800#32]
/-- LW R0, 31(R1) with `x[1] = 992`: address 1023. -/
def sLoad : State := machine [(1, 992)] [(1023, 7)] [0x8C20F800#32]
/-- LW R0, 31(R1) with `x[1] = 993`: address 1024. -/
def sLoadOut : State := machine [(1, 993)] [] [0x8C20F800#32]
/-- SW R0, 31(R1) with `x[1] = 993`: address 1024. -/
def sStoreOut : State := machine [(1, 993)] [] [0xAC20F800#32]
/-- BEQ R0, R0, 0 at the only index. -/
def sTaken : State := machine [] [] [0x10000000#32]
/-- BNE R0, R0, 0 at the only index. -/
def sNotTaken : State := machine [] [] [0x14000000#32]
/-- After a branch to index 1, with two words in the Program. -/
def sRedirected : State :=
  { machine [] [] [0x20000800#32, 0x00000024#32] with branchTaken := true, pcOut := 1 }

theorem witness_EncodeOfDecodedIsWord : decodeWord 0x8C441800#32 = .ok (.lw 2 4 3 0 0) := by decide

theorem witness_DispatchFollowsTheMaps :
    (unpack 0x00221820#32).opcode = 0x00#6 ∧ (unpack 0x00221820#32).funct = 0x20#6 ∧
    (unpack 0x00221822#32).opcode = 0x00#6 ∧ (unpack 0x00221822#32).funct = 0x22#6 ∧
    (unpack 0x00221824#32).opcode = 0x00#6 ∧ (unpack 0x00221824#32).funct = 0x24#6 ∧
    (unpack 0x00221825#32).opcode = 0x00#6 ∧ (unpack 0x00221825#32).funct = 0x25#6 ∧
    (unpack 0x0022182A#32).opcode = 0x00#6 ∧ (unpack 0x0022182A#32).funct = 0x2A#6 ∧
    (unpack 0x0000003F#32).opcode = 0x00#6 ∧ (unpack 0x0000003F#32).funct ∉ supportedFuncts ∧
    (unpack 0x08011000#32).opcode = 0x02#6 ∧ (unpack 0x10E01000#32).opcode = 0x04#6 ∧
    (unpack 0x14E00000#32).opcode = 0x05#6 ∧ (unpack 0x20222800#32).opcode = 0x08#6 ∧
    (unpack 0x8C441800#32).opcode = 0x23#6 ∧ (unpack 0xAC251800#32).opcode = 0x2B#6 ∧
    (unpack 0xFFFFFFFF#32).opcode ∉ supportedOpcodes := by decide

theorem witness_DecodeStageCopiesAndPacks :
    let s := { State.reset with instr := unpack 0xFFFFFFFF#32 }
    s.instr = unpack 0xFFFFFFFF#32 ∧
    s.decodeStage.immediate.getLsbD 4 = true ∧ s.decodeStage.immediate.getLsbD 5 = false ∧
    s.decodeStage.immediate.getLsbD 15 = false ∧ s.decodeStage.immediate.getLsbD 16 = true ∧
    s.decodeStage.immediate.getLsbD 20 = true ∧ s.decodeStage.immediate.getLsbD 21 = false ∧
    s.decodeStage.immediate.getLsbD 32 = false := by decide

theorem witness_SignExtend16Rule :
    (0x00008000#32).getLsbD 15 = true ∧ (0xFFFF7FFF#32).getLsbD 15 = false ∧
    (signExtend16 0x00008000#32).getLsbD 15 = true ∧ (signExtend16 0x00008000#32).getLsbD 16 = true ∧
    (signExtend16 0x00008000#32).getLsbD 31 = true ∧ (0x00007FFF#32).extractLsb' 16 16 = 0#16 := by
  decide

theorem witness_RTypeWords :
    0x00221FE0#32 &&& 0xFC00003F#32 = 0x00000020#32 ∧ 0x00221822#32 &&& 0xFC00003F#32 = 0x00000022#32 ∧
    0x00221824#32 &&& 0xFC00003F#32 = 0x00000024#32 ∧ 0x00221825#32 &&& 0xFC00003F#32 = 0x00000025#32 ∧
    0x0022182A#32 &&& 0xFC00003F#32 = 0x0000002A#32 := by decide

theorem witness_OpcodeWords :
    0x20222800#32 &&& 0xFC000000#32 = 0x20000000#32 ∧ 0x8C441800#32 &&& 0xFC000000#32 = 0x8C000000#32 ∧
    0xAC251800#32 &&& 0xFC000000#32 = 0xAC000000#32 ∧ 0x10E01000#32 &&& 0xFC000000#32 = 0x10000000#32 ∧
    0x14E00000#32 &&& 0xFC000000#32 = 0x14000000#32 ∧ 0x0BE00000#32 &&& 0xFC000000#32 = 0x08000000#32 := by
  decide

/-- For LwRule and SwRule: the last legal address and the first illegal one. -/
theorem witness_LwSwRule :
    ((port [(1, 992), (0, 9)] [] 31 0).effectiveAddress 1).toNat < 1024 ∧
    ((port [(1, 992), (0, 9)] [] 31 0).effectiveAddress 1).toNat = 1023 ∧
    (port [(1, 992), (0, 9)] [] 31 0).mem.wf = true ∧
    1024 ≤ ((port [(1, 993)] [] 31 0).effectiveAddress 1).toNat ∧
    ((port [(1, 993)] [] 31 0).effectiveAddress 1).toNat = 1024 := by decide

/-- For BeqRule and BneRule. -/
theorem witness_BeqBneRule :
    (port [(1, 7), (2, 7)] [] 3 100).reg 1 = (port [(1, 7), (2, 7)] [] 3 100).reg 2 ∧
    (port [(1, 1), (2, 0x80000001)] [] 3 100).reg 1 ≠ (port [(1, 1), (2, 0x80000001)] [] 3 100).reg 2 := by
  decide

theorem witness_IgnoredFieldsHaveNoEffect :
    Fetches (machine [(1, 10), (2, 20)] [] [0x00221820#32]) 0 0x00221820#32 ∧
    SameUsedFields 0x00221820#32 0x0022FFE0#32 ∧ SameUsedFields 0x08011000#32 0x0BE117FF#32 ∧
    Fetches (machine [] [] [0x08011000#32]) 0 0x08011000#32 ∧
    SameUsedFields 0x20000800#32 0x20000FFF#32 ∧ Fetches sAddi 0 0x20000800#32 :=
  ⟨by decide, ⟨by decide, by decide, by decide, by decide⟩, ⟨by decide, by decide, by decide, by decide⟩,
    by decide, ⟨by decide, by decide, by decide, by decide⟩, by decide⟩

theorem witness_MemoryPrimitives :
    (1023#32).toNat < 1024 ∧ 1024 ≤ (1024#32).toNat ∧ sLoad.mem.wf = true ∧ sLoad.mem ≠ [] := by decide

theorem witness_LoadAfterStore :
    let s := port [(1, 992), (0, 9)] [] 31 0
    let out := port [(1, 993), (0, 9)] [] 31 0
    let u := after (exec (.sw 1 0 31 0 0) s)
    s.mem.wf = true ∧ u.effectiveAddress 1 = s.effectiveAddress 1 ∧
    (s.effectiveAddress 1).toNat = 1023 ∧ (s.effectiveAddress 1).toNat < 1024 ∧
    u.mem = (after (exec (.sw 1 0 31 0 0) s)).mem ∧ u.mem = [(1023, 9#32)] ∧
    out.mem.wf = true ∧ out.effectiveAddress 1 = out.effectiveAddress 1 ∧
    (out.effectiveAddress 1).toNat = 1024 ∧ 1024 ≤ (out.effectiveAddress 1).toNat := by decide

theorem witness_EqualReadsAreEqualMemories :
    Memory.wf (memPut (memPut [] 1023 7) 5 1) = true ∧ Memory.wf (memPut (memPut [] 5 1) 1023 7) = true ∧
    ∀ a : Nat, memGet (memPut (memPut [] 1023 7) 5 1) a = memGet (memPut (memPut [] 5 1) 1023 7) a :=
  ⟨by decide, by decide, fun _ => rfl⟩

theorem witness_StepRunsTheDecodedInstruction :
    Fetches sAddi 0 0x20000800#32 ∧ decodeWord 0x20000800#32 = .ok (.addi 0 0 1 0 0) := by decide

/-- Halted; a fetch at the last index; a fetch one past it. -/
theorem witness_PcAfterStep :
    let h := { sAddi with fsr := ⟨true, true, 4, 3, 0, 0, 1⟩ }
    let e := { sAddi with pc := 1 }
    step h = .next (after (step h)) ∧ h.fsr.halted = true ∧
    step sAddi = .next (after (step sAddi)) ∧ sAddi.fsr.halted = false ∧
    (fetchAt sAddi).toNat + 1 = sAddi.program.length ∧
    step e = .next (after (step e)) ∧ e.fsr.halted = false ∧ (fetchAt e).toNat = e.program.length :=
  ⟨rfl, rfl, rfl, rfl, rfl, rfl, rfl, rfl⟩

theorem witness_RegistersWrittenOnlyByAddiLw :
    step sAddi = .next (after (step sAddi)) ∧ (after (step sAddi)).reg 0 ≠ sAddi.reg 0 ∧
    step sLoad = .next (after (step sLoad)) ∧ (after (step sLoad)).reg 0 ≠ sLoad.reg 0 :=
  ⟨rfl, by decide, rfl, by decide⟩

theorem witness_MemoryWrittenOnlyBySw :
    step sStore = .next (after (step sStore)) ∧ (after (step sStore)).word 1023 ≠ sStore.word 1023 :=
  ⟨rfl, by decide⟩

theorem witness_ProgramAndParametersFixed : step sStore = .next (after (step sStore)) := rfl

theorem witness_OnlyTransfersRedirect :
    Fetches sTaken 0 0x10000000#32 ∧ step sTaken = .next (after (step sTaken)) ∧
    (after (step sTaken)).branchTaken = true ∧ Redirects sTaken 0x10000000#32 ∧
    Fetches sNotTaken 0 0x14000000#32 ∧ step sNotTaken = .next (after (step sNotTaken)) ∧
    (after (step sNotTaken)).branchTaken = false ∧ ¬Redirects sNotTaken 0x14000000#32 :=
  ⟨by decide, rfl, by decide, by decide, by decide, rfl, by decide, by decide⟩

theorem witness_NoDelaySlot :
    sRedirected.fsr.halted = false ∧ sRedirected.branchTaken = true ∧
    sRedirected.program[sRedirected.pcOut.toNat]? = some 0x00000024#32 ∧
    sAddi.fsr.halted = false ∧ sAddi.branchTaken = false ∧
    sAddi.program[sAddi.pc.toNat]? = some 0x20000800#32 := by decide

theorem witness_TargetIndicesThroughThePipeline :
    Fetches sTaken 0 0x10000000#32 ∧ Redirects sTaken 0x10000000#32 ∧ wOpcode 0x10000000#32 ≠ 0x02#6 ∧
    sTaken.pcinMode = .next ∧
    Fetches { sTaken with pcinMode := .current } 0 0x10000000#32 ∧
    Redirects { sTaken with pcinMode := .current } 0x10000000#32 ∧
    Fetches (machine [] [] [0x08011000#32]) 0 0x08011000#32 ∧ wOpcode 0x08011000#32 = 0x02#6 ∧
    (pcInFor (machine [] [] [0x08011000#32]) 0).toNat + 4 < 2 ^ 28 := by decide

/-- The last index for which the clause about J speaks: `pc_in + 4 = 2^28 - 1`. -/
theorem witness_TargetIndicesThroughThePipeline_boundary :
    let s := { State.reset with program := List.replicate (2 ^ 28 - 5) 0x08000000#32, pc := 0x0FFFFFFA#32 }
    Fetches s 0x0FFFFFFA#32 0x08000000#32 ∧ (pcInFor s 0x0FFFFFFA#32).toNat + 4 = 2 ^ 28 - 1 :=
  ⟨⟨rfl, rfl, by rw [List.getElem?_replicate_of_lt (by decide)]⟩, by decide⟩

theorem witness_AddiThroughThePipeline :
    Fetches sAddi 0 0x20000800#32 ∧ wOpcode 0x20000800#32 = 0x08#6 ∧
    Fetches (machine [(1, 1)] [] [0x203FF800#32]) 0 0x203FF800#32 ∧ wOpcode 0x203FF800#32 = 0x08#6 := by
  decide

theorem witness_LoadStoreThroughThePipeline :
    Fetches sLoad 0 0x8C20F800#32 ∧ sLoad.mem.wf = true ∧ wOpcode 0x8C20F800#32 = 0x23#6 ∧
    ((sLoad.reg (wRs 0x8C20F800#32)).toNat + (wRt 0x8C20F800#32).toNat * 65536 +
      (wRd 0x8C20F800#32).toNat) % 2 ^ 32 = 1023 ∧
    Fetches sStore 0 0xAC20F800#32 ∧ sStore.mem.wf = true ∧ wOpcode 0xAC20F800#32 = 0x2B#6 ∧
    ((sStore.reg (wRs 0xAC20F800#32)).toNat + (wRt 0xAC20F800#32).toNat * 65536 +
      (wRd 0xAC20F800#32).toNat) % 2 ^ 32 = 1023 := by decide

theorem witness_RaiseRecordsTheFirstError :
    State.reset.fsr.faulted = false ∧ (State.reset.raise .unsupportedFunct 3 0).fsr.faulted = true := by
  decide

theorem witness_FetchOutOfBoundsRule :
    State.reset.fsr.halted = false ∧ State.reset.program.length ≤ (fetchAt State.reset).toNat ∧
    (after (step sTaken)).fsr.halted = false ∧
    (after (step sTaken)).program.length ≤ (fetchAt (after (step sTaken))).toNat := by decide

theorem witness_MemoryOutOfBoundsRule :
    Fetches sLoadOut 0 0x8C20F800#32 ∧ wOpcode 0x8C20F800#32 = 0x23#6 ∧
    (pipelineAddress sLoadOut 0x8C20F800#32).toNat = 1024 ∧
    Fetches sStoreOut 0 0xAC20F800#32 ∧ wOpcode 0xAC20F800#32 = 0x2B#6 ∧
    (pipelineAddress sStoreOut 0xAC20F800#32).toNat = 1024 := by decide

theorem witness_UnsupportedOpcodeRule :
    Fetches (machine [] [] [0x04000000#32]) 0 0x04000000#32 ∧ wOpcode 0x04000000#32 ∉ supportedOpcodes := by
  decide

theorem witness_UnsupportedFunctRule :
    Fetches (machine [] [] [0#32]) 0 0#32 ∧ wOpcode 0#32 = 0x00#6 ∧ wFunct 0#32 ∉ supportedFuncts := by
  decide

/-- One error of each code, under both policies. -/
theorem witness_ExecuteErrorsRecordTheFetchIndex :
    let u := machine [] [] [0x04000000#32]
    let z := { machine [] [] [0#32] with fatalPolicy := .continue }
    Fetches sLoadOut 0 0x8C20F800#32 ∧ step sLoadOut = .next (after (step sLoadOut)) ∧
    sLoadOut.fsr.faulted = false ∧ (after (step sLoadOut)).fsr.faulted = true ∧
    Fetches u 0 0x04000000#32 ∧ step u = .next (after (step u)) ∧
    u.fsr.faulted = false ∧ (after (step u)).fsr.faulted = true ∧
    Fetches z 0 0#32 ∧ step z = .next (after (step z)) ∧
    z.fsr.faulted = false ∧ (after (step z)).fsr.faulted = true :=
  ⟨by decide, rfl, by decide, by decide, by decide, rfl, by decide, by decide, by decide, rfl, by decide,
    by decide⟩

/-- After an error under `continue`: a second error, and a step without one. -/
theorem witness_FirstErrorIsKept :
    let s := after (step { sLoadOut with fatalPolicy := .continue })
    let q := { s with pc := 0, program := [0x00000024#32] }
    step s = .next (after (step s)) ∧ s.fsr.faulted = true ∧
    (after (step s)).fsr.count = s.fsr.count + 1 ∧
    step q = .next (after (step q)) ∧ (after (step q)).fsr.count = q.fsr.count :=
  ⟨rfl, by decide, by decide, rfl, by decide⟩

theorem witness_ErrorsArePrecise :
    step sLoadOut = .next (after (step sLoadOut)) ∧
    (after (step sLoadOut)).fsr.count ≠ sLoadOut.fsr.count ∧
    (fetchAt sLoadOut).toNat < sLoadOut.program.length ∧
    step State.reset = .next (after (step State.reset)) ∧
    (after (step State.reset)).fsr.count ≠ State.reset.fsr.count ∧
    State.reset.program.length ≤ (fetchAt State.reset).toNat :=
  ⟨rfl, by decide, by decide, rfl, by decide, by decide⟩

theorem witness_HaltedMachineNeverChanges : (after (step sLoadOut)).fsr.halted = true := by decide

theorem witness_HaltPolicyEndsTheRun :
    sLoadOut.fatalPolicy = .halt ∧ step sLoadOut = .next (after (step sLoadOut)) ∧
    (after (step sLoadOut)).fsr.count ≠ sLoadOut.fsr.count :=
  ⟨rfl, rfl, by decide⟩

theorem witness_FailedFetchRepeatsForEver :
    let s := after (step { sTaken with fatalPolicy := .continue })
    s.fatalPolicy = .continue ∧ s.fsr.halted = false ∧ s.program.length ≤ (fetchAt s).toNat ∧
    s.branchTaken = true := by decide

/-- A state with a Program, a stored word, a taken branch and a recorded error has the invariant. -/
theorem witness_Inv :
    Inv { machine [(1, 992)] [(1023, 7)] [0x10000000#32] with
      branchTaken := true, pcOut := 0xFFFFFFFD#32, pc := 1
      fatalPolicy := .continue, fsr := ⟨true, false, 2, 3, 0, 1024, 1⟩ } where
  memWf := by decide
  programBound := by decide
  decodedCopies := by decide
  immediateCopies := by decide
  fsrLegal := ⟨by decide, by decide, by decide, by decide, by decide, by decide⟩
  pcWithin := by decide
  nextPc := by decide
  takenResult := by decide

/-- For StepKeepsTheInvariant and RunKeepsTheInvariant. -/
theorem witness_StepKeepsTheInvariant :
    Inv sStore ∧ step sStore = .next (after (step sStore)) :=
  ⟨⟨by decide, by decide, by decide, by decide,
    ⟨by decide, by decide, by decide, by decide, by decide, by decide⟩, by decide, by decide, by decide⟩, rfl⟩

/-- A taken and a not taken state. -/
theorem witness_UnconditionalOverrideIsTheSame :
    (∃ s : State, Inv s ∧ s.pcinMode = .next ∧ s.branchTaken = true) ∧
    (∃ s : State, Inv s ∧ s.pcinMode = .next ∧ s.branchTaken = false) :=
  ⟨⟨_, witness_Inv, rfl, rfl⟩, ⟨_, witness_StepKeepsTheInvariant.1, rfl, rfl⟩⟩

/-- For HeldSignalsDoNotMatter and RunsFromAlikeStatesAgree: every held value differs. -/
theorem witness_HeldSignalsDoNotMatter :
    let t := { sAddi with
      instr := unpack 0xFFFFFFFF#32, opcode := 63, rs := 1, rt := 1, rd := 1, shamt := 1, funct := 1
      immediate := 1, pcIn := 5, result := 9 }
    SameCore sAddi t ∧ Fetches sAddi 0 0x20000800#32 ∧ t ≠ sAddi := by decide

theorem witness_FsrIsInvisible :
    let s := { sAddi with fatalPolicy := .continue }
    let g : Fsr := ⟨true, false, 4, 3, 7, 0, 2⟩
    s.fatalPolicy = .continue ∧ s.fsr.halted = false ∧ g.halted = false ∧ g ≠ s.fsr := by decide

theorem witness_RegisterAccessors :
    (1 ≤ 1 ∧ 1 ≤ 31) ∧ (1 ≤ 31 ∧ 31 ≤ 31) ∧ (0 : Nat) ≠ 1 ∧ (32 : Nat) ≤ 32 ∧ 31 < 32 ∧
    Harness.getReg 32 State.reset = .error (.registerIndexOutOfRange 32) := by decide

theorem witness_MemoryAccessors :
    (1023#32).toNat < 1024 ∧ sLoad.mem.wf = true ∧ 1024 ≤ (1024#32).toNat ∧
    1024 ≤ (0xFFFFFFFF#32).toNat := by decide

theorem witness_SetupHasTheInvariant :
    ([0x20000800#32] : List Word).length < 2 ^ 32 ∧
    2 ^ 32 ≤ (List.replicate (2 ^ 32) (0 : Word)).length :=
  ⟨by decide, by rw [List.length_replicate]⟩

end Sys2Proof.Tests
end

section
/-! PROOFS. Encoding (spec/30_encoding.md): the dispatch maps, the immediate and the Decode stage. -/

namespace Sys2Proof

/-! ## The decoder, one equation per row of the two maps (R53, R54) -/

section Dispatch

variable {f : Fields}

/-- Opcode 0x00 hands over to the secondary dispatch. -/
theorem decode_eq_decodeRType (ho : f.opcode = 0x00#6) : decode f = decodeRType f := if_pos ho

theorem decode_add (ho : f.opcode = 0x00#6) (hf : f.funct = 0x20#6) :
    decode f = .ok (.add f.rs f.rt f.rd f.shamt) := by
  rw [decode_eq_decodeRType ho]; simp [decodeRType, hf]

theorem decode_sub (ho : f.opcode = 0x00#6) (hf : f.funct = 0x22#6) :
    decode f = .ok (.sub f.rs f.rt f.rd f.shamt) := by
  rw [decode_eq_decodeRType ho]; simp [decodeRType, hf]

theorem decode_and (ho : f.opcode = 0x00#6) (hf : f.funct = 0x24#6) :
    decode f = .ok (.and f.rs f.rt f.rd f.shamt) := by
  rw [decode_eq_decodeRType ho]; simp [decodeRType, hf]

theorem decode_or (ho : f.opcode = 0x00#6) (hf : f.funct = 0x25#6) :
    decode f = .ok (.or f.rs f.rt f.rd f.shamt) := by
  rw [decode_eq_decodeRType ho]; simp [decodeRType, hf]

theorem decode_slt (ho : f.opcode = 0x00#6) (hf : f.funct = 0x2A#6) :
    decode f = .ok (.slt f.rs f.rt f.rd f.shamt) := by
  rw [decode_eq_decodeRType ho]; simp [decodeRType, hf]

theorem decode_unsupportedFunct (ho : f.opcode = 0x00#6) (hf : f.funct ∉ Claims.supportedFuncts) :
    decode f = .error (.unsupportedFunct f.funct) := by
  rw [decode_eq_decodeRType ho]
  simp only [Claims.supportedFuncts, List.mem_cons, List.not_mem_nil, not_or] at hf
  simp [decodeRType, hf]

theorem decode_j (ho : f.opcode = 0x02#6) : decode f = .ok (.j f.rs f.rt f.rd f.shamt f.funct) := by
  simp [decode, ho]

theorem decode_beq (ho : f.opcode = 0x04#6) :
    decode f = .ok (.beq f.rs f.rt f.rd f.shamt f.funct) := by
  simp [decode, ho]

theorem decode_bne (ho : f.opcode = 0x05#6) :
    decode f = .ok (.bne f.rs f.rt f.rd f.shamt f.funct) := by
  simp [decode, ho]

theorem decode_addi (ho : f.opcode = 0x08#6) :
    decode f = .ok (.addi f.rs f.rt f.rd f.shamt f.funct) := by
  simp [decode, ho]

theorem decode_lw (ho : f.opcode = 0x23#6) : decode f = .ok (.lw f.rs f.rt f.rd f.shamt f.funct) := by
  simp [decode, ho]

theorem decode_sw (ho : f.opcode = 0x2B#6) : decode f = .ok (.sw f.rs f.rt f.rd f.shamt f.funct) := by
  simp [decode, ho]

theorem decode_unsupportedOpcode (ho : f.opcode ∉ Claims.supportedOpcodes) :
    decode f = .error (.unsupportedOpcode f.opcode) := by
  simp only [Claims.supportedOpcodes, List.mem_cons, List.not_mem_nil, not_or] at ho
  simp [decode, ho]

end Dispatch

/-! ## The bits of the immediate (R46, R49) -/

theorem unpack_rt_getLsbD {w : Word} {k : Nat} (hk : k < 5) :
    (unpack w).rt.getLsbD k = w.getLsbD (16 + k) := by
  simp [unpack, hk]

theorem unpack_rd_getLsbD {w : Word} {k : Nat} (hk : k < 5) :
    (unpack w).rd.getLsbD k = w.getLsbD (11 + k) := by
  simp [unpack, hk]

/-- Below bit 16 the immediate is `rd`; its bits 5 to 15 are those that `rd` does not have. -/
theorem immediateOf_getLsbD_of_lt (rt : RegNum) (rd : BitVec 5) {k : Nat} (hk : k < 16) :
    (immediateOf rt rd).getLsbD k = rd.getLsbD k := by
  have hk32 : k < 32 := by omega
  simp [immediateOf, hk, hk32]

/-- From bit 16 up the immediate is `rt`; its bits from 21 up are those that `rt` does not have. -/
theorem immediateOf_getLsbD_of_le (rt : RegNum) (rd : BitVec 5) {k : Nat} (hk : 16 ≤ k) :
    (immediateOf rt rd).getLsbD k = rt.getLsbD (k - 16) := by
  have hrd : rd.getLsbD k = false := BitVec.getLsbD_of_ge rd k (by omega)
  by_cases hk32 : k < 32
  · simp [immediateOf, hrd, hk, hk32]
  · have hrt : rt.getLsbD (k - 16) = false := BitVec.getLsbD_of_ge rt (k - 16) (by omega)
    rw [hrt]
    exact BitVec.getLsbD_of_ge _ k (by omega)

/-- The immediate has no bit outside its two fields: neither in the gap between them nor above them. -/
theorem immediateOf_getLsbD_eq_false (rt : RegNum) (rd : BitVec 5) {k : Nat} (h5 : 5 ≤ k)
    (hk : k ≤ 15 ∨ 21 ≤ k) : (immediateOf rt rd).getLsbD k = false := by
  rcases hk with hgap | habove
  · rw [immediateOf_getLsbD_of_lt rt rd (by omega)]
    exact BitVec.getLsbD_of_ge rd k h5
  · rw [immediateOf_getLsbD_of_le rt rd (by omega)]
    exact BitVec.getLsbD_of_ge rt (k - 16) (by omega)

/-- The low field of the immediate of a word is `word[15:11]`. -/
theorem immediateOf_unpack_getLsbD_low (w : Word) {k : Nat} (hk : k < 5) :
    (immediateOf (unpack w).rt (unpack w).rd).getLsbD k = w.getLsbD (k + 11) := by
  rw [immediateOf_getLsbD_of_lt _ _ (by omega), unpack_rd_getLsbD hk, Nat.add_comm]

/-- The high field of the immediate of a word is `word[20:16]`, in its place. -/
theorem immediateOf_unpack_getLsbD_high (w : Word) {k : Nat} (h16 : 16 ≤ k) (h20 : k ≤ 20) :
    (immediateOf (unpack w).rt (unpack w).rd).getLsbD k = w.getLsbD k := by
  rw [immediateOf_getLsbD_of_le _ _ h16, unpack_rt_getLsbD (by omega), Nat.add_sub_cancel' h16]

/-! ## The Decode stage: what it drives and what it leaves unchanged (R48) -/

namespace Machine.State

variable (s : State)

@[simp] theorem decodeStage_opcode : s.decodeStage.opcode = s.instr.opcode := rfl
@[simp] theorem decodeStage_rs : s.decodeStage.rs = s.instr.rs := rfl
@[simp] theorem decodeStage_rt : s.decodeStage.rt = s.instr.rt := rfl
@[simp] theorem decodeStage_rd : s.decodeStage.rd = s.instr.rd := rfl
@[simp] theorem decodeStage_shamt : s.decodeStage.shamt = s.instr.shamt := rfl
@[simp] theorem decodeStage_funct : s.decodeStage.funct = s.instr.funct := rfl
@[simp] theorem decodeStage_immediate :
    s.decodeStage.immediate = immediateOf s.instr.rt s.instr.rd := rfl
@[simp] theorem decodeStage_regs : s.decodeStage.regs = s.regs := rfl
@[simp] theorem decodeStage_reg (r : RegNum) : s.decodeStage.reg r = s.reg r := rfl
@[simp] theorem decodeStage_mem : s.decodeStage.mem = s.mem := rfl
@[simp] theorem decodeStage_word (a : Nat) : s.decodeStage.word a = s.word a := rfl
@[simp] theorem decodeStage_pc : s.decodeStage.pc = s.pc := rfl
@[simp] theorem decodeStage_instr : s.decodeStage.instr = s.instr := rfl
@[simp] theorem decodeStage_pcIn : s.decodeStage.pcIn = s.pcIn := rfl
@[simp] theorem decodeStage_result : s.decodeStage.result = s.result := rfl
@[simp] theorem decodeStage_branchTaken : s.decodeStage.branchTaken = s.branchTaken := rfl
@[simp] theorem decodeStage_pcOut : s.decodeStage.pcOut = s.pcOut := rfl
@[simp] theorem decodeStage_fsr : s.decodeStage.fsr = s.fsr := rfl
@[simp] theorem decodeStage_program : s.decodeStage.program = s.program := rfl
@[simp] theorem decodeStage_pcinMode : s.decodeStage.pcinMode = s.pcinMode := rfl
@[simp] theorem decodeStage_fatalPolicy : s.decodeStage.fatalPolicy = s.fatalPolicy := rfl

end Machine.State

/-! ## The statements -/

/-- Settles O7: the copies and the frame are the laws of `decodeStage`; the bits of the immediate are
those of its two fields, which do not overlap. -/
theorem decodeStageCopiesAndPacks : Obligations.DecodeStageCopiesAndPacks := by
  intro s w hinstr
  have himm : s.decodeStage.immediate = immediateOf (unpack w).rt (unpack w).rd := by
    rw [Machine.State.decodeStage_immediate, hinstr]
  have hlow : ∀ k : Nat, k < 5 → s.decodeStage.immediate.getLsbD k = w.getLsbD (k + 11) :=
    fun _ hk => himm ▸ immediateOf_unpack_getLsbD_low w hk
  have hhigh : ∀ k : Nat, 16 ≤ k → k ≤ 20 → s.decodeStage.immediate.getLsbD k = w.getLsbD k :=
    fun _ h16 h20 => himm ▸ immediateOf_unpack_getLsbD_high w h16 h20
  have hzero : ∀ k : Nat, 5 ≤ k → k ≤ 15 ∨ 21 ≤ k → s.decodeStage.immediate.getLsbD k = false :=
    fun _ h5 hk => himm ▸ immediateOf_getLsbD_eq_false _ _ h5 hk
  exact ⟨s.decodeStage_opcode, s.decodeStage_rs, s.decodeStage_rt, s.decodeStage_rd,
    s.decodeStage_shamt, s.decodeStage_funct, s.decodeStage_immediate, hlow, hhigh, hzero,
    s.decodeStage_reg, s.decodeStage_word, s.decodeStage_pc, s.decodeStage_instr, s.decodeStage_pcIn,
    ⟨s.decodeStage_result, s.decodeStage_branchTaken, s.decodeStage_pcOut⟩, s.decodeStage_fsr,
    s.decodeStage_program, s.decodeStage_pcinMode, s.decodeStage_fatalPolicy⟩

/-- Settles O4, row by row of the two maps. -/
theorem dispatchFollowsTheMaps : Obligations.DispatchFollowsTheMaps := fun _ =>
  ⟨decode_add, decode_sub, decode_and, decode_or, decode_slt, decode_unsupportedFunct,
    decode_j, decode_beq, decode_bne, decode_addi, decode_lw, decode_sw, decode_unsupportedOpcode⟩

end Sys2Proof
end

section
/-! PROOFS. The R-type instructions (spec/41_rtype_alu.md): their words, and the rule they share. -/

namespace Sys2Proof

open Sys2Proof.Claims Sys2Proof.Machine

/-! ## The decoder is the inverse of the encoder (R53, R54) -/

/-- Dispatch on the record of an instruction gives that instruction back. -/
theorem decode_encode (i : Instr) : decode (encode i) = .ok i := by
  cases i with
  | add rs rt rd shamt => exact (Laws.RecordRoundTrip.add rs rt rd shamt).2
  | sub rs rt rd shamt => exact (Laws.RecordRoundTrip.sub rs rt rd shamt).2
  | and rs rt rd shamt => exact (Laws.RecordRoundTrip.and rs rt rd shamt).2
  | or rs rt rd shamt => exact (Laws.RecordRoundTrip.or rs rt rd shamt).2
  | slt rs rt rd shamt => exact (Laws.RecordRoundTrip.slt rs rt rd shamt).2
  | addi rs rt rd shamt funct => exact (Laws.RecordRoundTrip.addi rs rt rd shamt funct).2
  | lw rs rt rd shamt funct => exact (Laws.RecordRoundTrip.lw rs rt rd shamt funct).2
  | sw rs rt rd shamt funct => exact (Laws.RecordRoundTrip.sw rs rt rd shamt funct).2
  | beq rs rt rd shamt funct => exact (Laws.RecordRoundTrip.beq rs rt rd shamt funct).2
  | bne rs rt rd shamt funct => exact (Laws.RecordRoundTrip.bne rs rt rd shamt funct).2
  | j rs rt rd shamt funct => exact (Laws.RecordRoundTrip.j rs rt rd shamt funct).2

/-- The secondary dispatch answers an instruction only for that instruction's own record. -/
theorem eq_encode_of_decodeRType_eq_ok {f : Fields} {i : Instr} (ho : f.opcode = 0x00#6)
    (h : decodeRType f = .ok i) : f = encode i := by
  obtain ⟨opcode, rs, rt, rd, shamt, funct⟩ := f
  obtain rfl : opcode = 0x00#6 := ho
  unfold decodeRType at h
  split_ifs at h with hf hf hf hf hf <;> cases h <;>
    exact congrArg (Fields.mk 0x00#6 rs rt rd shamt) hf

/-- The decoder answers an instruction only for that instruction's own record. -/
theorem eq_encode_of_decode_eq_ok {f : Fields} {i : Instr} (h : decode f = .ok i) :
    f = encode i := by
  by_cases hR : f.opcode = 0x00#6
  · rw [decode_eq_decodeRType hR] at h
    exact eq_encode_of_decodeRType_eq_ok hR h
  · obtain ⟨opcode, rs, rt, rd, shamt, funct⟩ := f
    simp only [decode, if_neg hR] at h
    split_ifs at h with ho ho ho ho ho ho <;> cases h <;>
      exact congrArg (Fields.mk · rs rt rd shamt funct) ho

theorem decode_eq_ok_iff {f : Fields} {i : Instr} : decode f = .ok i ↔ f = encode i :=
  ⟨eq_encode_of_decode_eq_ok, fun h => h ▸ decode_encode i⟩

/-! ## The words of an R-type instruction (R46, R54) -/

theorem rTypeMask_getLsbD : ∀ k : Nat, k < 32 →
    (0xFC00003F#32).getLsbD k = (decide (k < 6) || decide (26 ≤ k)) := by decide

/-- The mask of the R-type rows keeps `word[31:26]` and `word[5:0]`. -/
theorem and_rTypeMask_getLsbD (w : Word) (k : Nat) (hk : k < 32) :
    (w &&& 0xFC00003F#32).getLsbD k = (w.getLsbD k && (decide (k < 6) || decide (26 ≤ k))) := by
  rw [BitVec.getLsbD_and, rTypeMask_getLsbD k hk]

/-- A word matches an R-type row exactly when its opcode is 0x00 and its funct is the row's. -/
theorem and_rTypeMask_eq_iff (w : Word) (fn : BitVec 6) :
    w &&& 0xFC00003F#32 = fn.setWidth 32 ↔
      (unpack w).opcode = 0x00#6 ∧ (unpack w).funct = fn := by
  constructor
  · intro h
    have hbits := and_rTypeMask_getLsbD w
    rw [h] at hbits
    constructor <;> refine BitVec.eq_of_getLsbD_eq fun k hk => ?_
    · have hfn : fn.getLsbD (26 + k) = false := BitVec.getLsbD_of_ge fn _ (by omega)
      simpa [unpack, hk, hfn] using hbits (26 + k) (by omega)
    · have hk32 : k < 32 := by omega
      simpa [unpack, hk, hk32] using (hbits k hk32).symm
  · rintro ⟨ho, rfl⟩
    refine BitVec.eq_of_getLsbD_eq fun k hk => ?_
    rw [and_rTypeMask_getLsbD w k hk]
    by_cases hlow : k < 6
    · simp [unpack, hlow, hk]
    · by_cases hhigh : 26 ≤ k
      · have hbit : (unpack w).opcode.getLsbD (k - 26) = false := by simp [ho]
        simpa [unpack, hlow, hhigh, show k - 26 < 6 by omega] using hbit
      · simp [unpack, hlow, hhigh]

section RTypeRule

variable {mk : RegNum → RegNum → BitVec 5 → BitVec 5 → Instr} {fn : BitVec 6}

/-- The words of the R-type row with function code `fn` are those that decode to its instruction. -/
theorem and_rTypeMask_eq_iff_decodeWord
    (hencode : ∀ rs rt rd shamt, encode (mk rs rt rd shamt) = ⟨0x00#6, rs, rt, rd, shamt, fn⟩)
    (w : Word) :
    w &&& 0xFC00003F#32 = fn.setWidth 32 ↔
      decodeWord w = .ok (mk (wRs w) (wRt w) (wRd w) (wShamt w)) := by
  rw [and_rTypeMask_eq_iff, decodeWord, decode_eq_ok_iff, hencode]
  simp [unpack]

/-- What all R-type instructions share (R80): an instruction that the encoder gives opcode 0x00 and
function code `fn`, and that only drives `value` of its operands on `result`, has the rule of that
row. -/
theorem rTypeRule {value : Word → Word → Word}
    (hencode : ∀ rs rt rd shamt, encode (mk rs rt rd shamt) = ⟨0x00#6, rs, rt, rd, shamt, fn⟩)
    (hexec : ∀ rs rt rd shamt s,
      exec (mk rs rt rd shamt) s = .next (s.driveResult (value (s.reg rs) (s.reg rt)))) :
    RTypeRule (fn.setWidth 32) mk value := by
  refine ⟨and_rTypeMask_eq_iff_decodeWord hencode, fun rs rt rd shamt s => ⟨_, hexec .., ?_⟩⟩
  simp [driveResult_eq, Outputs, SameRegs, SameMem, SameInputs, SameParameters]

end RTypeRule

/-! ## The instructions at the Execute stage (R83 to R85) -/

theorem exec_and (rs rt : RegNum) (rd shamt : BitVec 5) (s : State) :
    exec (.and rs rt rd shamt) s = .next (s.driveResult (s.reg rs &&& s.reg rt)) := rfl

theorem exec_or (rs rt : RegNum) (rd shamt : BitVec 5) (s : State) :
    exec (.or rs rt rd shamt) s = .next (s.driveResult (s.reg rs ||| s.reg rt)) := rfl

theorem exec_slt (rs rt : RegNum) (rd shamt : BitVec 5) (s : State) :
    exec (.slt rs rt rd shamt) s = .next (s.driveResult (sltValue (s.reg rs) (s.reg rt))) := rfl

/-- `signed(v)` by bit 31 (R6). -/
theorem toInt_eq_ite_getLsbD (v : Word) :
    v.toInt = if v.getLsbD 31 then (v.toNat : Int) - 2 ^ 32 else (v.toNat : Int) := by
  rw [BitVec.toInt_eq_msb_cond, BitVec.msb_eq_getLsbD_last]
  rfl

/-! ## The statements -/

/-- Settles O12: AND is the R-type instruction with function code 0x24. -/
theorem andRule : Obligations.AndRule :=
  ⟨rTypeRule (fn := 0x24#6) (fun _ _ _ _ => rfl) exec_and, fun _ _ _ => BitVec.getLsbD_and⟩

/-- Settles O13: OR is the R-type instruction with function code 0x25. -/
theorem orRule : Obligations.OrRule :=
  ⟨rTypeRule (fn := 0x25#6) (fun _ _ _ _ => rfl) exec_or, fun _ _ _ => BitVec.getLsbD_or⟩

/-- Settles O14: SLT is the R-type instruction with function code 0x2A, and its comparison of `toInt`
is that of `signed`. -/
theorem sltRule : Obligations.SltRule := by
  unfold Obligations.SltRule
  refine rTypeRule (fn := 0x2A#6) (fun _ _ _ _ => rfl) fun rs rt rd shamt s => ?_
  rw [exec_slt, sltValue, toInt_eq_ite_getLsbD, toInt_eq_ite_getLsbD]

end Sys2Proof
end

section
/-! PROOFS. ADDI (spec/42_addi.md): the words of an instruction that its opcode alone selects, the
write-back of a value to `x[rt]`, and the rule of ADDI. -/

namespace Sys2Proof

open Sys2Proof.Claims Sys2Proof.Machine

/-! ## The words of an instruction selected by its opcode alone (R46, R53) -/

theorem opcodeMask_getLsbD : ∀ k : Nat, k < 32 →
    (0xFC000000#32).getLsbD k = decide (26 ≤ k) := by decide

/-- The mask of the opcode rows keeps the opcode, in its place, and nothing else. -/
theorem and_opcodeMask (w : Word) :
    w &&& 0xFC000000#32 = (unpack w).opcode.setWidth 32 <<< 26 := by
  refine BitVec.eq_of_getLsbD_eq fun k hk => ?_
  rw [BitVec.getLsbD_and, opcodeMask_getLsbD k hk]
  by_cases hhigh : 26 ≤ k
  · simp [unpack, hk, hhigh, show k - 26 < 6 by omega]
  · simp [hhigh, show k < 26 by omega]

/-- The place of the opcode in the packed word holds every opcode. -/
theorem extractLsb'_opcode_shiftLeft (op : BitVec 6) :
    (op.setWidth 32 <<< 26).extractLsb' 26 6 = op := by
  refine BitVec.eq_of_getLsbD_eq fun k hk => ?_
  simp [hk, show 26 + k < 32 by omega]

/-- A word matches an opcode row exactly when its opcode is the row's. -/
theorem and_opcodeMask_eq_iff (w : Word) (op : BitVec 6) :
    w &&& 0xFC000000#32 = op.setWidth 32 <<< 26 ↔ (unpack w).opcode = op := by
  rw [and_opcodeMask]
  constructor
  · intro h
    rw [← extractLsb'_opcode_shiftLeft (unpack w).opcode, h, extractLsb'_opcode_shiftLeft]
  · rintro rfl
    rfl

/-- The words of the row with opcode `op` are those that decode to the instruction whose record has
opcode `op`. -/
theorem opcodeWords {mk : RegNum → RegNum → BitVec 5 → BitVec 5 → BitVec 6 → Instr} {op : BitVec 6}
    (hencode : ∀ rs rt rd shamt funct,
      encode (mk rs rt rd shamt funct) = ⟨op, rs, rt, rd, shamt, funct⟩) :
    OpcodeWords (op.setWidth 32 <<< 26) mk := by
  intro w
  rw [and_opcodeMask_eq_iff, decodeWord, decode_eq_ok_iff, hencode]
  simp [unpack]

/-! ## Writing a value to `x[rt]` and driving it (R66, R68) -/

/-- The whole effect of writing `v` to `x[rt]` and driving it on `result` without a redirection. -/
theorem drive_writeReg_effect (s : State) (rt : RegNum) (v : Word) :
    let t := (s.writeReg rt v).drive v false s.pcIn
    t.reg rt = v ∧ Outputs t v false s.pcIn ∧
      SameRegsBut rt s t ∧ SameMem s t ∧ t.fsr = s.fsr ∧ SameInputs s t := by
  have hother : SameRegsBut rt s ((s.writeReg rt v).drive v false s.pcIn) := fun r hr => by
    rw [reg_drive, reg_writeReg_other s rt r v hr]
  refine ⟨by simp, by simp [Outputs], hother, by simp [SameMem], by simp, ?_⟩
  simp [SameInputs, SameParameters]

/-! ## ADDI at the Execute stage (R90) -/

theorem exec_addi (rs rt : RegNum) (rd shamt : BitVec 5) (funct : BitVec 6) (s : State) :
    exec (.addi rs rt rd shamt funct) s =
      .next ((s.writeReg rt (s.reg rs + s.signedImmediate)).drive
        (s.reg rs + s.signedImmediate) false s.pcIn) := rfl

/-- The sum of two words is the sum of their numbers modulo 2^32 (R6). -/
theorem ofNat_toNat_add_mod (a b : Word) : BitVec.ofNat 32 ((a.toNat + b.toNat) % 2 ^ 32) = a + b := by
  rw [← BitVec.toNat_add, BitVec.ofNat_toNat, BitVec.setWidth_eq]

/-- Settles O15: ADDI is the instruction with opcode 0x08, and it writes the sum of its operands to
`x[rt]` and drives it. -/
theorem addiRule : Obligations.AddiRule := by
  refine ⟨opcodeWords (op := 0x08#6) fun _ _ _ _ _ => rfl, fun rs rt rd shamt funct s =>
    ⟨_, exec_addi rs rt rd shamt funct s, ?_⟩⟩
  rw [ofNat_toNat_add_mod]
  exact drive_writeReg_effect s rt (s.reg rs + s.signedImmediate)

end Sys2Proof
end

section
/-! PROOFS. LW and SW (spec/43_load_store.md): the effective address, the two outcomes of each access,
the effect of a store and of an error of the Execute stage, and the rules of LW and SW. -/

namespace Sys2Proof

open Sys2Proof.Claims Sys2Proof.Machine

/-! ## The effective address, and the two outcomes of an access (R93 to R95) -/

theorem effectiveAddress_toNat (s : State) (rs : RegNum) :
    (s.effectiveAddress rs).toNat =
      ((s.reg rs).toNat + (signExtend16 s.immediate).toNat) % 2 ^ 32 :=
  BitVec.toNat_add (s.reg rs) (signExtend16 s.immediate)

section Access

variable {rs : RegNum} {s : State} (rt : RegNum) (rd shamt : BitVec 5) (funct : BitVec 6)

theorem exec_lw_of_lt (h : (s.effectiveAddress rs).toNat < memWords) :
    exec (.lw rs rt rd shamt funct) s =
      .next ((s.writeReg rt (s.word (s.effectiveAddress rs).toNat)).drive
        (s.word (s.effectiveAddress rs).toNat) false s.pcIn) := by
  obtain ⟨-, he⟩ | ⟨hle, -⟩ := execLw_cases rs rt rd shamt funct s
  · exact he
  · exact absurd h hle.not_gt

theorem exec_lw_of_le (h : memWords ≤ (s.effectiveAddress rs).toNat) :
    exec (.lw rs rt rd shamt funct) s =
      .next (s.executeError .memoryOutOfBounds (s.effectiveAddress rs)) := by
  obtain ⟨hlt, -⟩ | ⟨-, he⟩ := execLw_cases rs rt rd shamt funct s
  · exact absurd h hlt.not_ge
  · exact he

theorem exec_sw_of_lt (h : (s.effectiveAddress rs).toNat < memWords) :
    exec (.sw rs rt rd shamt funct) s =
      .next ((s.writeWord (s.effectiveAddress rs).toNat (s.reg rt)).drive 0 false s.pcIn) := by
  obtain ⟨-, he⟩ | ⟨hle, -⟩ := execSw_cases rs rt rd shamt funct s
  · exact he
  · exact absurd h hle.not_gt

theorem exec_sw_of_le (h : memWords ≤ (s.effectiveAddress rs).toNat) :
    exec (.sw rs rt rd shamt funct) s =
      .next (s.executeError .memoryOutOfBounds (s.effectiveAddress rs)) := by
  obtain ⟨hlt, -⟩ | ⟨-, he⟩ := execSw_cases rs rt rd shamt funct s
  · exact absurd h hlt.not_ge
  · exact he

end Access

/-! ## A store, and an error of the Execute stage (R68, R95, R116) -/

/-- The whole effect of storing `v` at address `a` and driving the default outputs. Reading `v` back
needs the canonical form of memory (log 1); the frame does not. -/
theorem drive_writeWord_effect (s : State) (a : Nat) (v : Word) :
    let t := (s.writeWord a v).drive 0 false s.pcIn
    (s.mem.wf = true → t.word a = v) ∧ (∀ b : Nat, b ≠ a → t.word b = s.word b) ∧
      Outputs t 0 false s.pcIn ∧ SameRegs s t ∧ t.fsr = s.fsr ∧ SameInputs s t := by
  refine ⟨fun hwf => ?_, fun b hb => ?_, by simp [Outputs], by simp [SameRegs], by simp, ?_⟩
  · rw [word_drive, word_writeWord_same s a v hwf]
  · rw [word_drive, word_writeWord_other s a b v hb]
  · simp [SameInputs, SameParameters]

/-- The whole effect of an error of the Execute stage: it is recorded with the fetch index, the default
outputs are driven, and nothing is written. -/
theorem executeError_effect (s : State) (e : Fault) (addr : Word) :
    let t := s.executeError e addr
    t.fsr = recordFault s.fsr e s.fetchIndex addr s.fatalPolicy ∧
      Outputs t 0 false s.pcIn ∧ SameRegs s t ∧ SameMem s t ∧ SameInputs s t := by
  simp [executeError_eq, State.fetchIndex, Outputs, SameRegs, SameMem, SameInputs, SameParameters]

/-! ## The statements -/

/-- Settles O16: LW is the instruction with opcode 0x23; in bounds it writes the word at the effective
address to `x[rt]` and drives it, otherwise it is an error of the Execute stage. -/
theorem lwRule : Obligations.LwRule := by
  refine ⟨opcodeWords (op := 0x23#6) fun _ _ _ _ _ => rfl, fun rs rt rd shamt funct s =>
    ⟨effectiveAddress_toNat s rs, fun hlt => ?_, fun hle => ?_⟩⟩
  · exact ⟨_, exec_lw_of_lt rt rd shamt funct hlt, drive_writeReg_effect s rt _⟩
  · obtain ⟨hfsr, hframe⟩ := executeError_effect s .memoryOutOfBounds (s.effectiveAddress rs)
    exact ⟨_, exec_lw_of_le rt rd shamt funct hle, ⟨_, hfsr⟩, hframe⟩

/-- Settles O17: SW is the instruction with opcode 0x2B; in bounds it stores `x[rt]` at the effective
address, otherwise it is an error of the Execute stage. -/
theorem swRule : Obligations.SwRule := by
  refine ⟨opcodeWords (op := 0x2B#6) fun _ _ _ _ _ => rfl, fun rs rt rd shamt funct s =>
    ⟨effectiveAddress_toNat s rs, fun hlt => ?_, fun hle => ?_⟩⟩
  · exact ⟨_, exec_sw_of_lt rt rd shamt funct hlt, drive_writeWord_effect s _ (s.reg rt)⟩
  · obtain ⟨hfsr, hframe⟩ := executeError_effect s .memoryOutOfBounds (s.effectiveAddress rs)
    exact ⟨_, exec_sw_of_le rt rd shamt funct hle, ⟨_, hfsr⟩, hframe⟩

end Sys2Proof
end

section
/-! PROOFS. BEQ, BNE and J (spec/44_branch_jump.md): the two targets as sums modulo 2^32, the effect of
driving the output ports, and the rules of the three instructions. -/

namespace Sys2Proof

open Sys2Proof.Claims Sys2Proof.Machine

/-! ## The targets (R100, R103) -/

/-- A shift left by 2 multiplies by 4 modulo 2^32 (R6). -/
theorem ofNat_four_mul_toNat (v : Word) : BitVec.ofNat 32 (4 * v.toNat) = v <<< 2 := by
  rw [BitVec.ofNat_mul, BitVec.ofNat_toNat, BitVec.setWidth_eq, BitVec.mul_comm,
    BitVec.shiftLeft_eq_mul_twoPow]
  rfl

theorem ofNat_four_mul_toNat_mod (v : Word) : BitVec.ofNat 32 (4 * v.toNat % 2 ^ 32) = v <<< 2 := by
  rw [← ofNat_four_mul_toNat]
  exact BitVec.eq_of_toNat_eq (by simp)

/-- The target of a taken BEQ or BNE, as an integer modulo 2^32. -/
theorem branchTarget_eq_ofInt (s : State) :
    s.branchTarget =
      BitVec.ofInt 32 (s.pcIn.toNat + 4 * (signExtend16 s.immediate).toNat - 4) := by
  have hpc : BitVec.ofInt 32 s.pcIn.toNat = s.pcIn := by simp
  have himm : BitVec.ofInt 32 (4 * (signExtend16 s.immediate).toNat) =
      signExtend16 s.immediate <<< 2 := by
    rw [← ofNat_four_mul_toNat, ← BitVec.ofInt_natCast, Nat.cast_mul, Nat.cast_ofNat]
  rw [sub_eq_add_neg, BitVec.ofInt_add, BitVec.ofInt_add, hpc, himm, BitVec.ofInt_neg]
  exact BitVec.sub_eq_add_neg _ _

/-- The target of J, its two parts as numbers modulo 2^32. -/
theorem jumpTarget_eq_ofNat (s : State) :
    s.jumpTarget =
      (BitVec.ofNat 32 ((s.pcIn.toNat + 4) % 2 ^ 32) &&& 0xF0000000#32) |||
        BitVec.ofNat 32 (4 * s.immediate.toNat % 2 ^ 32) := by
  have hpc : BitVec.ofNat 32 ((s.pcIn.toNat + 4) % 2 ^ 32) = s.pcIn + 4#32 :=
    ofNat_toNat_add_mod s.pcIn 4#32
  rw [hpc, ofNat_four_mul_toNat_mod, State.jumpTarget]

/-! ## Driving the output ports and nothing else (R68) -/

/-- The whole effect of driving the three output ports. -/
theorem drive_effect (s : State) (res : Word) (taken : Bool) (npc : Word) :
    let t := s.drive res taken npc
    Outputs t res taken npc ∧ SameRegs s t ∧ SameMem s t ∧ t.fsr = s.fsr ∧ SameInputs s t := by
  simp [Outputs, SameRegs, SameMem, SameInputs, SameParameters]

/-- The whole effect of a conditional branch: the target when its condition holds, the default outputs
otherwise, and nothing else either way. -/
theorem branchWhen_effect (s : State) (p : Prop) [Decidable p] :
    let t := s.branchWhen (decide p)
    (p → Outputs t 0 true s.branchTarget) ∧ (¬p → Outputs t 0 false s.pcIn) ∧
      SameRegs s t ∧ SameMem s t ∧ t.fsr = s.fsr ∧ SameInputs s t := by
  obtain ⟨hc, ht⟩ | ⟨hc, ht⟩ := branchWhen_cases s (decide p)
  · obtain ⟨hout, hframe⟩ := drive_effect s 0 true s.branchTarget
    rw [ht]
    exact ⟨fun _ => hout, fun hp => absurd (of_decide_eq_true hc) hp, hframe⟩
  · obtain ⟨hout, hframe⟩ := drive_effect s 0 false s.pcIn
    rw [ht]
    exact ⟨fun hp => absurd hp (of_decide_eq_false hc), fun _ => hout, hframe⟩

/-! ## The instructions at the Execute stage (R101 to R103) -/

section Transfer

variable (rs rt : RegNum) (rd shamt : BitVec 5) (funct : BitVec 6) (s : State)

theorem exec_beq : exec (.beq rs rt rd shamt funct) s =
    .next (s.branchWhen (decide (s.reg rs = s.reg rt))) := rfl

theorem exec_bne : exec (.bne rs rt rd shamt funct) s =
    .next (s.branchWhen (decide (s.reg rs ≠ s.reg rt))) := rfl

theorem exec_j : exec (.j rs rt rd shamt funct) s = .next (s.drive 0 true s.jumpTarget) := rfl

end Transfer

/-! ## The statements -/

/-- Settles O18: BEQ is the instruction with opcode 0x04, a branch on the equality of its operands. -/
theorem beqRule : Obligations.BeqRule := by
  refine ⟨opcodeWords (op := 0x04#6) fun _ _ _ _ _ => rfl, fun rs rt rd shamt funct s =>
    ⟨_, exec_beq rs rt rd shamt funct s, ?_⟩⟩
  rw [← branchTarget_eq_ofInt]
  exact branchWhen_effect s (s.reg rs = s.reg rt)

/-- Settles O19: BNE is the instruction with opcode 0x05, a branch on the difference of its operands. -/
theorem bneRule : Obligations.BneRule := by
  refine ⟨opcodeWords (op := 0x05#6) fun _ _ _ _ _ => rfl, fun rs rt rd shamt funct s =>
    ⟨_, exec_bne rs rt rd shamt funct s, ?_⟩⟩
  obtain ⟨htaken, hnot, hframe⟩ := branchWhen_effect s (s.reg rs ≠ s.reg rt)
  rw [← branchTarget_eq_ofInt]
  exact ⟨htaken, fun heq => hnot (not_not_intro heq), hframe⟩

/-- Settles O20: J is the instruction with opcode 0x02, and it drives its target whatever its fields. -/
theorem jRule : Obligations.JRule := by
  refine ⟨opcodeWords (op := 0x02#6) fun _ _ _ _ _ => rfl, fun rs rt rd shamt funct s =>
    ⟨_, exec_j rs rt rd shamt funct s, ?_⟩⟩
  rw [← jumpTarget_eq_ofNat]
  exact drive_effect s 0 true s.jumpTarget

end Sys2Proof
end

section
/-! PROOFS. The fatal errors of the Execute stage (spec/60_exceptions.md R112 to R114): the step that
fetches a word, the effective address through the pipeline, and what an error leaves in the state. -/

namespace Sys2Proof

open Sys2Proof.Claims Sys2Proof.Machine

/-! ## The immediate and the effective address through the pipeline (R50, R52, R96) -/

/-- The two fields of the immediate do not overlap, so that it is a sum (R50). -/
theorem immediateOf_toNat (rt : RegNum) (rd : BitVec 5) :
    (immediateOf rt rd).toNat = rt.toNat * 65536 + rd.toNat := by
  have hrt : rt.toNat < 2 ^ 5 := rt.isLt
  have hrd : rd.toNat < 2 ^ 16 := rd.isLt.trans (by decide)
  have hshift : rt.toNat <<< 16 % 2 ^ 32 = rt.toNat <<< 16 :=
    Nat.mod_eq_of_lt (by rw [Nat.shiftLeft_eq]; omega)
  calc (immediateOf rt rd).toNat = rt.toNat <<< 16 ||| rd.toNat := by
        rw [immediateOf, BitVec.toNat_or, BitVec.toNat_shiftLeft,
          BitVec.toNat_setWidth_of_le (by decide), BitVec.toNat_setWidth_of_le (by decide), hshift]
    _ = rt.toNat <<< 16 + rd.toNat := (Nat.shiftLeft_add_eq_or_of_lt hrd _).symm
    _ = rt.toNat * 65536 + rd.toNat := by rw [Nat.shiftLeft_eq]

/-- Bit 15 of the immediate lies in the gap between its fields, so `sign_extend16` keeps it (R52). -/
theorem signExtend16_immediateOf (rt : RegNum) (rd : BitVec 5) :
    signExtend16 (immediateOf rt rd) = immediateOf rt rd := by
  have hbit : (immediateOf rt rd).getLsbD 15 = false :=
    immediateOf_getLsbD_eq_false rt rd (by decide) (.inl (by decide))
  exact if_neg (ne_true_of_eq_false hbit)

/-- The immediate operand of the word `w` is `rt * 65536 + rd`. -/
theorem ready_signedImmediate (s : State) (f w : Word) :
    (s.ready f w).signedImmediate = pipelineImmediate w := by
  have himm : (s.ready f w).signedImmediate = immediateOf (wRt w) (wRd w) :=
    signExtend16_immediateOf (wRt w) (wRd w)
  rw [himm, pipelineImmediate, ← immediateOf_toNat, BitVec.ofNat_toNat, BitVec.setWidth_eq]

theorem ready_effectiveAddress (s : State) (f w : Word) :
    (s.ready f w).effectiveAddress (wRs w) = pipelineAddress s w := by
  rw [State.effectiveAddress, ready_signedImmediate]
  rfl

/-! ## The step that fetches a word (R62, R67, R70) -/

section Fetched

variable {s : State} {f w : Word} (hfetch : Fetches s f w)
include hfetch

theorem step_of_decodeWord_eq_ok {i : Instr} (hd : decodeWord w = .ok i) :
    step s = exec i (s.ready f w) := by
  obtain ⟨hrunning, rfl, hw⟩ := hfetch
  exact step_instruction s w i hrunning hw hd

theorem step_of_decodeWord_eq_error {e : DecodeError} (hd : decodeWord w = .error e) :
    step s = .next ((s.ready f w).executeUnsupported e) := by
  obtain ⟨hrunning, rfl, hw⟩ := hfetch
  exact step_unsupported s w e hrunning hw hd

/-- LW and SW alike end in an error of the Execute stage when their address is out of bounds. -/
theorem step_of_pipelineAddress_le (hop : wOpcode w = 0x23#6 ∨ wOpcode w = 0x2B#6)
    (hle : memWords ≤ (pipelineAddress s w).toNat) :
    step s = .next ((s.ready f w).executeError .memoryOutOfBounds (pipelineAddress s w)) := by
  rw [← ready_effectiveAddress s f w] at hle ⊢
  rcases hop with hlw | hsw
  · rw [step_of_decodeWord_eq_ok hfetch (decode_lw (f := unpack w) hlw)]
    exact exec_lw_of_le _ _ _ _ hle
  · rw [step_of_decodeWord_eq_ok hfetch (decode_sw (f := unpack w) hsw)]
    exact exec_sw_of_le _ _ _ _ hle

theorem step_of_unsupportedOpcode (hop : wOpcode w ∉ supportedOpcodes) :
    step s = .next ((s.ready f w).executeError .unsupportedOpcode 0) :=
  step_of_decodeWord_eq_error hfetch (decode_unsupportedOpcode (f := unpack w) hop)

theorem step_of_unsupportedFunct (hop : wOpcode w = 0x00#6) (hfn : wFunct w ∉ supportedFuncts) :
    step s = .next ((s.ready f w).executeError .unsupportedFunct 0) :=
  step_of_decodeWord_eq_error hfetch (decode_unsupportedFunct (f := unpack w) hop hfn)

end Fetched

/-! ## What an error of the Execute stage leaves in the state (R15, R68, R116) -/

/-- `pc` is one past the fetch index when the Execute stage evaluates (R15; log 7). -/
theorem ready_fetchIndex (s : State) (f w : Word) : (s.ready f w).fetchIndex = f :=
  BitVec.add_sub_cancel f 1#32

/-- The whole effect, on the state before the step, of an error the Execute stage raises for the word
fetched from `f`: the fetch stands, the default outputs are driven, the error is recorded with `f`, and
nothing is written. -/
theorem ready_executeError_effect (s : State) (f w : Word) (e : Fault) (addr : Word) :
    let t := (s.ready f w).executeError e addr
    t.pc = f + 1#32 ∧ Outputs t 0 false t.pcIn ∧
      t.fsr = recordFault s.fsr e f addr s.fatalPolicy ∧
      SameRegs s t ∧ SameMem s t ∧ SameParameters s t := by
  obtain ⟨hfsr, hout, hregs, hmem, hpc, -, -, -, -, -, -, -, -, hpcIn, hparams⟩ :=
    executeError_effect (s.ready f w) e addr
  rw [ready_fetchIndex] at hfsr
  exact ⟨hpc, hpcIn.symm ▸ hout, hfsr, hregs, hmem, hparams⟩

/-! ## The statements -/

/-- Settles O38: an LW or SW out of bounds is an error of the Execute stage with its address. -/
theorem memoryOutOfBoundsRule : Obligations.MemoryOutOfBoundsRule := by
  intro s f w hfetch hop hle
  obtain ⟨hpc, hout, hfsr, hframe⟩ :=
    ready_executeError_effect s f w .memoryOutOfBounds (pipelineAddress s w)
  exact ⟨_, step_of_pipelineAddress_le hfetch hop hle, hpc, hout, ⟨f, hfsr⟩, hframe⟩

/-- Settles O39: the default arm of the primary dispatch is an error of the Execute stage. -/
theorem unsupportedOpcodeRule : Obligations.UnsupportedOpcodeRule := by
  intro s f w hfetch hop
  obtain ⟨-, hout, hfsr, hframe⟩ := ready_executeError_effect s f w .unsupportedOpcode 0
  exact ⟨_, step_of_unsupportedOpcode hfetch hop, hout, ⟨f, 0, hfsr⟩, hframe⟩

/-- Settles O40: the default arm of the secondary dispatch is an error of the Execute stage, and the
all-zero word has the funct 0, which is none of the five. -/
theorem unsupportedFunctRule : Obligations.UnsupportedFunctRule := by
  refine ⟨fun s f w hfetch hop hfn => ?_, by decide⟩
  obtain ⟨-, hout, hfsr, hframe⟩ := ready_executeError_effect s f w .unsupportedFunct 0
  exact ⟨_, step_of_unsupportedFunct hfetch hop hfn, hout, ⟨f, 0, hfsr⟩, hframe⟩

end Sys2Proof
end

section
/-! PROOFS. The packed layout (spec/30_encoding.md R46): packing and unpacking inverse to each other,
the round trips between words and instructions, the rows of the opcode table, and `sign_extend16`. -/

namespace Sys2Proof

open Sys2Proof.Claims Sys2Proof.Machine

/-! ## Packing and unpacking (R46) -/

/-- The fields stand side by side, each shifted to its place. -/
theorem pack_eq_or_shiftLeft (f : Fields) :
    pack f =
      (f.opcode.setWidth 32 <<< 26) ||| (f.rs.setWidth 32 <<< 21) ||| (f.rt.setWidth 32 <<< 16) |||
        (f.rd.setWidth 32 <<< 11) ||| (f.shamt.setWidth 32 <<< 6) ||| f.funct.setWidth 32 := by
  rw [← BitVec.setWidth_eq (pack f), pack]
  simp only [BitVec.setWidth_append_eq_shiftLeft_setWidth_or, BitVec.shiftLeft_or_distrib,
    ← BitVec.shiftLeft_add]

/-- Which field of the record each bit of the packed word comes from. -/
theorem pack_getLsbD (f : Fields) (k : Nat) :
    (pack f).getLsbD k =
      if k < 6 then f.funct.getLsbD k
      else if k < 11 then f.shamt.getLsbD (k - 6)
      else if k < 16 then f.rd.getLsbD (k - 11)
      else if k < 21 then f.rt.getLsbD (k - 16)
      else if k < 26 then f.rs.getLsbD (k - 21)
      else f.opcode.getLsbD (k - 26) := by
  simp only [pack, BitVec.getLsbD_append, Nat.sub_sub]
  grind

theorem unpack_pack (f : Fields) : unpack (pack f) = f := by
  obtain ⟨opcode, rs, rt, rd, shamt, funct⟩ := f
  simp only [unpack, Fields.mk.injEq]
  refine ⟨?_, ?_, ?_, ?_, ?_, ?_⟩ <;> refine BitVec.eq_of_getLsbD_eq fun k hk => ?_ <;>
    rw [BitVec.getLsbD_extractLsb', pack_getLsbD] <;> grind

theorem pack_unpack (w : Word) : pack (unpack w) = w := by
  simp only [pack, unpack]
  rw [BitVec.extractLsb'_append_extractLsb'_eq_extractLsb' (start₂ := 26) (start₁ := 21) rfl,
    BitVec.extractLsb'_append_extractLsb'_eq_extractLsb' (start₂ := 21) (start₁ := 16) rfl,
    BitVec.extractLsb'_append_extractLsb'_eq_extractLsb' (start₂ := 16) (start₁ := 11) rfl,
    BitVec.extractLsb'_append_extractLsb'_eq_extractLsb' (start₂ := 11) (start₁ := 6) rfl]
  exact (BitVec.extractLsb'_append_extractLsb'_eq_extractLsb' rfl).trans BitVec.extractLsb'_eq_self

/-! ## Round trips between words and instructions (R46, R53, R54) -/

/-- A word decodes to an instruction exactly when it is that instruction's word. -/
theorem decodeWord_eq_ok_iff {w : Word} {i : Instr} : decodeWord w = .ok i ↔ encodeWord i = w := by
  rw [decodeWord, decode_eq_ok_iff, encodeWord]
  exact ⟨fun h => h ▸ pack_unpack w, fun h => h ▸ unpack_pack (encode i)⟩

/-! ## The rows of the opcode table (R53 to R55) -/

/-- The rows of the table: one for each supported funct, then one for each other supported opcode. -/
theorem tableRows_eq :
    tableRows =
      [0x20#6, 0x22#6, 0x24#6, 0x25#6, 0x2A#6].map
        (fun fn : BitVec 6 => (0xFC00003F#32, fn.setWidth 32)) ++
      [0x08#6, 0x23#6, 0x2B#6, 0x04#6, 0x05#6, 0x02#6].map
        fun op : BitVec 6 => (0xFC000000#32, op.setWidth 32 <<< 26) := rfl

/-- A record passes the check exactly when its opcode is one of the six that stand alone, or is 0x00
with a supported funct. -/
theorem fieldsWf_iff (f : Fields) :
    fieldsWf f = true ↔
      (f.opcode = 0x00#6 ∧ f.funct ∈ supportedFuncts) ∨
        f.opcode ∈ [0x08#6, 0x23#6, 0x2B#6, 0x04#6, 0x05#6, 0x02#6] := by
  by_cases ho : f.opcode = 0x00#6
  · simp [fieldsWf, functSupported, opcodeSupported, ho]
  · simp [fieldsWf, functSupported, opcodeSupported, ho]
    grind

/-- Some row of the table matches a word exactly when its record passes the check. -/
theorem exists_tableRow_iff (w : Word) :
    (∃ r ∈ tableRows, w &&& r.1 = r.2) ↔ fieldsWf (unpack w) = true := by
  rw [fieldsWf_iff, tableRows_eq]
  simp only [List.mem_append, List.mem_map, or_and_right, exists_or]
  refine or_congr ⟨?_, ?_⟩ ⟨?_, ?_⟩
  · rintro ⟨_, ⟨fn, hfn, rfl⟩, h⟩
    obtain ⟨ho, rfl⟩ := (and_rTypeMask_eq_iff w fn).mp h
    exact ⟨ho, hfn⟩
  · rintro ⟨ho, hfn⟩
    exact ⟨_, ⟨_, hfn, rfl⟩, (and_rTypeMask_eq_iff w _).mpr ⟨ho, rfl⟩⟩
  · rintro ⟨_, ⟨op, hop, rfl⟩, h⟩
    exact (and_opcodeMask_eq_iff w op).mp h ▸ hop
  · intro hop
    exact ⟨_, ⟨_, hop, rfl⟩, (and_opcodeMask_eq_iff w _).mpr rfl⟩

/-- Dispatch answers an instruction exactly for the records that pass the check. -/
theorem exists_decode_eq_ok_iff (f : Fields) : (∃ i, decode f = .ok i) ↔ fieldsWf f = true := by
  constructor
  · rintro ⟨i, h⟩
    rw [decode_eq_ok_iff.mp h]
    cases i <;> rfl
  · rw [fieldsWf_iff]
    simp only [supportedFuncts, List.mem_cons, List.not_mem_nil, or_false]
    rintro (⟨ho, hf | hf | hf | hf | hf⟩ | ho | ho | ho | ho | ho | ho)
    · exact ⟨_, decode_add ho hf⟩
    · exact ⟨_, decode_sub ho hf⟩
    · exact ⟨_, decode_and ho hf⟩
    · exact ⟨_, decode_or ho hf⟩
    · exact ⟨_, decode_slt ho hf⟩
    · exact ⟨_, decode_addi ho⟩
    · exact ⟨_, decode_lw ho⟩
    · exact ⟨_, decode_sw ho⟩
    · exact ⟨_, decode_beq ho⟩
    · exact ⟨_, decode_bne ho⟩
    · exact ⟨_, decode_j ho⟩

/-- No two rows agree on the bits that both their masks keep. -/
theorem tableRows_pairwise_disjoint :
    tableRows.Pairwise fun r q => r.2 &&& q.1 ≠ q.2 &&& r.1 := by decide

/-! ## `sign_extend16` (R51) -/

theorem upperHalf_getLsbD : ∀ k : Nat, k < 32 →
    (0xFFFF0000#32).getLsbD k = decide (16 ≤ k) := by decide

/-- Bits 31 to 16 become 1 when bit 15 is set; every other bit passes through. -/
theorem signExtend16_getLsbD (v : Word) {k : Nat} (hk : k < 32) :
    (signExtend16 v).getLsbD k = (v.getLsbD k || (v.getLsbD 15 && decide (16 ≤ k))) := by
  unfold signExtend16
  split_ifs with h15
  · rw [BitVec.getLsbD_or, upperHalf_getLsbD k hk, h15, Bool.true_and]
  · rw [Bool.not_eq_true] at h15
    rw [h15, Bool.false_and, Bool.or_false]

/-- The bits of the ordinary sign extension of the low half. -/
theorem signExtend_lowHalf_getLsbD (v : Word) {k : Nat} (hk : k < 32) :
    ((v.extractLsb' 0 16).signExtend 32).getLsbD k = v.getLsbD (if k < 16 then k else 15) := by
  rw [BitVec.getLsbD_signExtend, BitVec.msb_eq_getLsbD_last]
  by_cases h : k < 16 <;> simp [h, hk]

/-- `sign_extend16` is ordinary sign extension exactly where it does not let bits of the upper half
through. -/
theorem signExtend16_eq_signExtend_iff (v : Word) :
    signExtend16 v = (v.extractLsb' 0 16).signExtend 32 ↔
      v.extractLsb' 16 16 = 0#16 ∨ v.getLsbD 15 = true := by
  constructor
  · intro h
    by_cases h15 : v.getLsbD 15 = true
    · exact .inr h15
    · refine .inl (BitVec.eq_of_getLsbD_eq fun k hk => ?_)
      have hbit := congrArg (BitVec.getLsbD · (16 + k)) h
      rw [Bool.not_eq_true] at h15
      simpa only [signExtend16_getLsbD v (show 16 + k < 32 by omega), h15, Bool.false_and,
        Bool.or_false, signExtend_lowHalf_getLsbD v (show 16 + k < 32 by omega),
        show ¬16 + k < 16 by omega, if_false, BitVec.getLsbD_extractLsb', hk, decide_true,
        Bool.true_and, BitVec.getLsbD_zero] using hbit
  · intro h
    refine BitVec.eq_of_getLsbD_eq fun k hk => ?_
    rw [signExtend16_getLsbD v hk, signExtend_lowHalf_getLsbD v hk]
    by_cases hlow : k < 16
    · simp [hlow]
    · obtain ⟨j, rfl⟩ := Nat.exists_eq_add_of_le (Nat.le_of_not_lt hlow)
      rcases h with hhigh | h15
      · have hbit : v.getLsbD (16 + j) = false := by
          simpa [show j < 16 by omega] using congrArg (BitVec.getLsbD · j) hhigh
        simp [hbit]
      · simp [h15]

/-! ## The statements -/

/-- Settles O1: unpacking undoes packing, and dispatch undoes the record. -/
theorem decodeOfEncodeIsInstr : Obligations.DecodeOfEncodeIsInstr := fun _ =>
  decodeWord_eq_ok_iff.mpr rfl

/-- Settles O2. -/
theorem encodeOfDecodedIsWord : Obligations.EncodeOfDecodedIsWord := fun _ _ =>
  decodeWord_eq_ok_iff.mp

/-- Settles O3. -/
theorem packUnpackInverse : Obligations.PackUnpackInverse :=
  ⟨pack_eq_or_shiftLeft, unpack_pack, pack_unpack⟩

/-- Settles O5: a word that matched two rows would match both patterns where the masks overlap. -/
theorem supportedWordsAreTheTableRows : Obligations.SupportedWordsAreTheTableRows := by
  refine ⟨fun w => ?_, fun w => exists_decode_eq_ok_iff (unpack w), fun w =>
    tableRows_pairwise_disjoint.imp ?_⟩
  · rw [exists_tableRow_iff]
    exact exists_decode_eq_ok_iff (unpack w)
  · rintro r q hne ⟨hr, hq⟩
    refine hne ?_
    rw [← hr, ← hq, BitVec.and_assoc, BitVec.and_assoc, BitVec.and_comm r.1]

/-- Settles O6, word by word. -/
theorem wordsOfTheSpecDecode : Obligations.WordsOfTheSpecDecode := by
  unfold Obligations.WordsOfTheSpecDecode
  decide

/-- Settles O8: the two fields of the immediate leave bit 15 clear. -/
theorem pipelineImmediateRange : Obligations.PipelineImmediateRange := fun rt rd =>
  ⟨immediateOf_toNat rt rd, immediateOf_getLsbD_eq_false rt rd (by decide) (.inl (by decide)),
    signExtend16_immediateOf rt rd⟩

/-- Settles O9. -/
theorem signExtend16Rule : Obligations.SignExtend16Rule := by
  intro v
  refine ⟨fun h15 => if_pos h15, fun h15 => if_neg (ne_true_of_eq_false h15), fun k hk => ?_,
    fun k h16 hk => ?_, signExtend16_eq_signExtend_iff v⟩
  · simp [signExtend16_getLsbD v (show k < 32 by omega), hk]
  · simp [signExtend16_getLsbD v hk, h16, Bool.or_comm]

end Sys2Proof
end

section
/-! PROOFS. ADD and SUB (spec/41_rtype_alu.md R81, R82): sums and differences modulo 2^32. -/

namespace Sys2Proof

open Sys2Proof.Claims Sys2Proof.Machine

theorem exec_add (rs rt : RegNum) (rd shamt : BitVec 5) (s : State) :
    exec (.add rs rt rd shamt) s = .next (s.driveResult (s.reg rs + s.reg rt)) := rfl

theorem exec_sub (rs rt : RegNum) (rd shamt : BitVec 5) (s : State) :
    exec (.sub rs rt rd shamt) s = .next (s.driveResult (s.reg rs - s.reg rt)) := rfl

/-- The difference of two words is the difference of their numbers modulo 2^32 (R6). -/
theorem ofInt_toNat_sub_mod (a b : Word) :
    BitVec.ofInt 32 ((a.toNat - b.toNat : Int) % 2 ^ 32) = a - b := by
  refine BitVec.eq_of_toInt_eq ?_
  rw [BitVec.toInt_ofInt, BitVec.toInt_sub]
  simp only [BitVec.toInt_eq_toNat_bmod, Int.sub_bmod_bmod, Int.bmod_sub_bmod]
  exact Int.emod_bmod _ _

/-- Settles O10: ADD is the R-type instruction with function code 0x20. -/
theorem addRule : Obligations.AddRule := by
  unfold Obligations.AddRule
  refine rTypeRule (fn := 0x20#6) (fun _ _ _ _ => rfl) fun rs rt rd shamt s => ?_
  rw [exec_add, ofNat_toNat_add_mod]

/-- Settles O11: SUB is the R-type instruction with function code 0x22. -/
theorem subRule : Obligations.SubRule := by
  unfold Obligations.SubRule
  refine rTypeRule (fn := 0x22#6) (fun _ _ _ _ => rfl) fun rs rt rd shamt s => ?_
  rw [exec_sub, ofInt_toNat_sub_mod]

end Sys2Proof
end

section
/-! PROOFS. Data memory (spec/20_memory.md): memories in canonical form that read alike are equal, the
access primitives, a load after a store, and the accessors of the harness. -/

namespace Sys2Proof

open Sys2Proof.Claims Sys2Proof.Machine

/-! ## The canonical form determines the data (log 1) -/

/-- The canonical form of a memory with a first cell, part by part. -/
theorem memWfFrom_cons {lo a : Nat} {v : Word} {m : Memory} :
    memWfFrom lo ((a, v) :: m) = true ↔
      lo ≤ a ∧ a < memWords ∧ v ≠ memResetWord ∧ memWfFrom (a + 1) m = true := by
  simp [memWfFrom, and_assoc]

theorem memGet_cons_self (a : Nat) (v : Word) (m : Memory) : memGet ((a, v) :: m) a = v :=
  if_pos rfl

theorem memGet_cons_of_ne {a b : Nat} (h : b ≠ a) (v : Word) (m : Memory) :
    memGet ((a, v) :: m) b = memGet m b := if_neg h

/-- Below its first cell a memory reads as after reset. -/
theorem memGet_of_lt {m : Memory} {lo a : Nat} (h : memWfFrom lo m = true) (ha : a < lo) :
    memGet m a = memResetWord := by
  induction m generalizing lo with
  | nil => rfl
  | cons c m ih =>
    obtain ⟨b, v⟩ := c
    obtain ⟨hb, -, -, hm⟩ := memWfFrom_cons.mp h
    rw [memGet_cons_of_ne (by omega)]
    exact ih hm (by omega)

/-- Two memories in canonical form that read alike have a first cell at the same address: where one
began below the other, it would hold a word that the other does not. -/
theorem first_address_not_lt {lo lo' a b : Nat} {v w : Word} {m m' : Memory}
    (h : memWfFrom lo ((a, v) :: m) = true) (h' : memWfFrom lo' ((b, w) :: m') = true)
    (hread : ∀ k : Nat, memGet ((a, v) :: m) k = memGet ((b, w) :: m') k) : ¬a < b := by
  intro hlt
  obtain ⟨-, -, hv, -⟩ := memWfFrom_cons.mp h
  obtain ⟨-, -, -, hm'⟩ := memWfFrom_cons.mp h'
  refine hv ?_
  rw [← memGet_cons_self a v m, hread a, memGet_cons_of_ne (by omega)]
  exact memGet_of_lt hm' (by omega)

/-- A memory in canonical form that reads as after reset everywhere has no cell. -/
theorem eq_nil_of_memGet {lo : Nat} {m : Memory} (h : memWfFrom lo m = true)
    (hread : ∀ k : Nat, memGet m k = memResetWord) : m = [] := by
  cases m with
  | nil => rfl
  | cons c m =>
    obtain ⟨a, v⟩ := c
    obtain ⟨-, -, hv, -⟩ := memWfFrom_cons.mp h
    exact absurd ((memGet_cons_self a v m).symm.trans (hread a)) hv

theorem eq_of_memGet_eq {lo lo' : Nat} {m m' : Memory} (h : memWfFrom lo m = true)
    (h' : memWfFrom lo' m' = true) (hread : ∀ k : Nat, memGet m k = memGet m' k) : m = m' := by
  induction m generalizing lo lo' m' with
  | nil => exact (eq_nil_of_memGet h' fun k => (hread k).symm).symm
  | cons c m ih =>
    cases m' with
    | nil => exact eq_nil_of_memGet h hread
    | cons c' m' =>
      obtain ⟨a, v⟩ := c
      obtain ⟨b, w⟩ := c'
      obtain rfl : a = b := Nat.le_antisymm
        (Nat.le_of_not_lt (first_address_not_lt h' h fun k => (hread k).symm))
        (Nat.le_of_not_lt (first_address_not_lt h h' hread))
      obtain rfl : v = w := by
        rw [← memGet_cons_self a v m, hread a, memGet_cons_self]
      obtain ⟨-, -, -, hm⟩ := memWfFrom_cons.mp h
      obtain ⟨-, -, -, hm'⟩ := memWfFrom_cons.mp h'
      refine congrArg _ (ih hm hm' fun k => ?_)
      by_cases hk : k < a + 1
      · rw [memGet_of_lt hm hk, memGet_of_lt hm' hk]
      · have hne : k ≠ a := by omega
        rw [← memGet_cons_of_ne hne v m, hread k, memGet_cons_of_ne hne]

/-! ## The access primitives (R33) -/

theorem memRead_of_lt (s : State) {addr : Word} (h : addr.toNat < memWords) :
    s.memRead addr = some (s.word addr.toNat) := if_pos ((inBounds_iff addr).mpr h)

theorem memRead_of_le (s : State) {addr : Word} (h : memWords ≤ addr.toNat) :
    s.memRead addr = none := if_neg fun hb => h.not_gt ((inBounds_iff addr).mp hb)

theorem memWrite_of_lt (s : State) {addr : Word} (v : Word) (h : addr.toNat < memWords) :
    s.memWrite addr v = some (s.writeWord addr.toNat v) := if_pos ((inBounds_iff addr).mpr h)

theorem memWrite_of_le (s : State) {addr : Word} (v : Word) (h : memWords ≤ addr.toNat) :
    s.memWrite addr v = none := if_neg fun hb => h.not_gt ((inBounds_iff addr).mp hb)

/-! ## The accessors of the harness (R44) -/

theorem writeMem_of_lt (s : State) {a : Word} (v : Word) (h : a.toNat < memWords) :
    Harness.writeMem a v s = s.writeWord a.toNat v := by
  rw [Harness.writeMem, memWrite_of_lt s v h]

theorem writeMem_of_le (s : State) {a : Word} (v : Word) (h : memWords ≤ a.toNat) :
    Harness.writeMem a v s = s.raise .memoryOutOfBounds s.pc a := by
  rw [Harness.writeMem, memWrite_of_le s v h, Harness.memoryError]

theorem readMem_of_lt (s : State) {a : Word} (h : a.toNat < memWords) :
    Harness.readMem a s = (some (s.word a.toNat), s) := by
  rw [Harness.readMem, memRead_of_lt s h]

theorem readMem_of_le (s : State) {a : Word} (h : memWords ≤ a.toNat) :
    Harness.readMem a s = (none, s.raise .memoryOutOfBounds s.pc a) := by
  rw [Harness.readMem, memRead_of_le s h, Harness.memoryError]

/-! ## The statements -/

/-- Settles O24. -/
theorem equalReadsAreEqualMemories : Obligations.EqualReadsAreEqualMemories := fun _ _ h h' hread =>
  eq_of_memGet_eq h h' hread

/-- Settles O22: the write is `writeWord`, whose laws give the read back and the frame. -/
theorem memoryPrimitives : Obligations.MemoryPrimitives := by
  intro s addr v
  refine ⟨memRead_of_lt s, fun hle => ⟨memRead_of_le s hle, memWrite_of_le s v hle⟩,
    fun hlt hwf => ⟨_, memWrite_of_lt s v hlt, ?_, memPut_wf s.mem addr.toNat v hwf hlt,
      fun a ha => word_writeWord_other s addr.toNat a v ha, ?_⟩⟩
  · rw [memRead_of_lt _ hlt, word_writeWord_same s addr.toNat v hwf]
  · simp [SameRegs, SameInputs, SameParameters, Outputs]

/-- Settles O23: the LW reads the memory the SW left, at the same address; out of bounds neither
writes. -/
theorem loadAfterStore : Obligations.LoadAfterStore := by
  intro s u rs rt rs' rt' rd shamt rd' shamt' fn fn' hwf haddr
  by_cases hlt : (s.effectiveAddress rs).toNat < memWords
  · refine ⟨_, exec_sw_of_lt rt rd shamt fn hlt, fun _ hmem => ?_,
      fun hle => absurd hlt hle.not_gt⟩
    have hload : u.word (u.effectiveAddress rs').toNat = s.reg rt := by
      rw [haddr, State.word, hmem]
      exact word_writeWord_same s _ _ hwf
    refine ⟨_, exec_lw_of_lt rt' rd' shamt' fn' (haddr ▸ hlt), ?_⟩
    simp [hload, hmem]
  · have hle : memWords ≤ (s.effectiveAddress rs).toNat := Nat.le_of_not_lt hlt
    refine ⟨_, exec_sw_of_le rt rd shamt fn hle, fun h => absurd h hlt, fun _ => ⟨rfl, rfl, ?_⟩⟩
    exact ⟨_, exec_lw_of_le rt' rd' shamt' fn' (haddr ▸ hle), rfl, rfl⟩

/-- Settles O56. -/
theorem memoryAccessors : Obligations.MemoryAccessors := by
  intro s a v
  refine ⟨fun hlt hwf => ?_, readMem_of_lt s,
    fun hle => ⟨writeMem_of_le s v hle, readMem_of_le s hle⟩⟩
  rw [writeMem_of_lt s v hlt, readMem_of_lt _ hlt, word_writeWord_same s a.toNat v hwf]
  exact ⟨rfl, rfl, fun b hb => word_writeWord_other s a.toNat b v hb⟩

end Sys2Proof
end

section
/-! PROOFS. What a step that fetches a word does, said once (spec/40_pipeline_and_dispatch.md R62 to
R69): `Evaluates` has one constructor for each kind of word, and `step_eq_next_iff` says that it is
the step. Every later statement about a step is read off its constructors. -/

namespace Sys2Proof

open Sys2Proof.Claims Sys2Proof.Machine

/-! ## The state in which the Execute stage evaluates (R62 to R65) -/

section Ready

variable (s : State) (f w : Word)

@[simp] theorem ready_immediate :
    (s.ready f w).immediate = immediateOf (unpack w).rt (unpack w).rd := rfl

theorem pcinValue_eq_pcInFor : pcinValue s.pcinMode f = pcInFor s f := by
  unfold pcInFor
  cases s.pcinMode with
  | next => rfl
  | current => rfl

/-- The incoming program counter of the fetched word (R63). -/
@[simp] theorem ready_pcIn : (s.ready f w).pcIn = pcInFor s f := pcinValue_eq_pcInFor s f

theorem afterDecode_eq_ready : afterDecode s f w = s.ready f w := by
  rw [afterDecode, ← pcinValue_eq_pcInFor]
  rfl

/-- The immediate of the word `w` is `rt * 65536 + rd`, before `sign_extend16` as after it. -/
theorem ready_immediate_eq_pipelineImmediate :
    (s.ready f w).immediate = pipelineImmediate w := by
  rw [← ready_signedImmediate s f w, State.signedImmediate, ready_immediate,
    signExtend16_immediateOf]

end Ready

/-! ## The values a word computes -/

/-- The value an R-type word with function code `fn` drives on `result` (R81 to R85). -/
def rTypeValue (fn : BitVec 6) (a b : Word) : Word :=
  if fn = 0x20#6 then a + b
  else if fn = 0x22#6 then a - b
  else if fn = 0x24#6 then a &&& b
  else if fn = 0x25#6 then a ||| b
  else sltValue a b

/-- The target of a taken BEQ or BNE fetched from `f` (R100). -/
def branchTargetAt (s : State) (f w : Word) : Word :=
  pcInFor s f + (pipelineImmediate w <<< 2) - 4#32

/-- The target of a J fetched from `f` (R103). -/
def jumpTargetAt (s : State) (f w : Word) : Word :=
  ((pcInFor s f + 4#32) &&& 0xF0000000#32) ||| (pipelineImmediate w <<< 2)

/-- Where a word that redirects control leads: J jumps, BEQ and BNE branch. -/
def redirectTarget (s : State) (f w : Word) : Word :=
  if wOpcode w = 0x02#6 then jumpTargetAt s f w else branchTargetAt s f w

theorem ready_branchTarget (s : State) (f w : Word) :
    (s.ready f w).branchTarget = branchTargetAt s f w := by
  rw [State.branchTarget, ready_signedImmediate, ready_pcIn, branchTargetAt]

theorem ready_jumpTarget (s : State) (f w : Word) :
    (s.ready f w).jumpTarget = jumpTargetAt s f w := by
  rw [State.jumpTarget, ready_immediate_eq_pipelineImmediate, ready_pcIn, jumpTargetAt]

/-! ## The step, kind by kind -/

section Fetched

variable {s : State} {f w : Word} (hfetch : Fetches s f w)
include hfetch

theorem step_of_rType (hop : wOpcode w = 0x00#6) (hfn : wFunct w ∈ supportedFuncts) :
    step s = .next ((s.ready f w).drive
      (rTypeValue (wFunct w) (s.reg (wRs w)) (s.reg (wRt w))) false (pcInFor s f)) := by
  rw [← ready_pcIn s f w]
  simp only [supportedFuncts, List.mem_cons, List.not_mem_nil, or_false] at hfn
  obtain hf | hf | hf | hf | hf := hfn
  · rw [step_of_decodeWord_eq_ok hfetch (decode_add (f := unpack w) hop hf), hf]
    rfl
  · rw [step_of_decodeWord_eq_ok hfetch (decode_sub (f := unpack w) hop hf), hf]
    rfl
  · rw [step_of_decodeWord_eq_ok hfetch (decode_and (f := unpack w) hop hf), hf]
    rfl
  · rw [step_of_decodeWord_eq_ok hfetch (decode_or (f := unpack w) hop hf), hf]
    rfl
  · rw [step_of_decodeWord_eq_ok hfetch (decode_slt (f := unpack w) hop hf), hf]
    rfl

theorem step_of_addi (hop : wOpcode w = 0x08#6) :
    step s = .next (((s.ready f w).writeReg (wRt w) (pipelineAddress s w)).drive
      (pipelineAddress s w) false (pcInFor s f)) := by
  rw [← ready_pcIn s f w, ← ready_effectiveAddress s f w,
    step_of_decodeWord_eq_ok hfetch (decode_addi (f := unpack w) hop)]
  rfl

theorem step_of_lw (hop : wOpcode w = 0x23#6) (hlt : (pipelineAddress s w).toNat < memWords) :
    step s = .next (((s.ready f w).writeReg (wRt w) (s.word (pipelineAddress s w).toNat)).drive
      (s.word (pipelineAddress s w).toNat) false (pcInFor s f)) := by
  rw [← ready_pcIn s f w]
  rw [← ready_effectiveAddress s f w] at hlt ⊢
  rw [step_of_decodeWord_eq_ok hfetch (decode_lw (f := unpack w) hop)]
  exact exec_lw_of_lt _ _ _ _ hlt

theorem step_of_sw (hop : wOpcode w = 0x2B#6) (hlt : (pipelineAddress s w).toNat < memWords) :
    step s = .next (((s.ready f w).writeWord (pipelineAddress s w).toNat (s.reg (wRt w))).drive
      0 false (pcInFor s f)) := by
  rw [← ready_pcIn s f w]
  rw [← ready_effectiveAddress s f w] at hlt ⊢
  rw [step_of_decodeWord_eq_ok hfetch (decode_sw (f := unpack w) hop)]
  exact exec_sw_of_lt _ _ _ _ hlt

theorem step_of_beq (hop : wOpcode w = 0x04#6) :
    step s = .next ((s.ready f w).branchWhen (decide (s.reg (wRs w) = s.reg (wRt w)))) :=
  step_of_decodeWord_eq_ok hfetch (decode_beq (f := unpack w) hop)

theorem step_of_bne (hop : wOpcode w = 0x05#6) :
    step s = .next ((s.ready f w).branchWhen (decide (s.reg (wRs w) ≠ s.reg (wRt w)))) :=
  step_of_decodeWord_eq_ok hfetch (decode_bne (f := unpack w) hop)

theorem step_of_j (hop : wOpcode w = 0x02#6) :
    step s = .next ((s.ready f w).drive 0 true (jumpTargetAt s f w)) := by
  rw [← ready_jumpTarget s f w]
  exact step_of_decodeWord_eq_ok hfetch (decode_j (f := unpack w) hop)

/-- A branch or jump whose condition holds drives its target. -/
theorem step_of_redirects (h : Redirects s w) :
    step s = .next ((s.ready f w).drive 0 true (redirectTarget s f w)) := by
  obtain ⟨hop, heq⟩ | ⟨hop, hne⟩ | hop := h
  · rw [step_of_beq hfetch hop, decide_eq_true heq, redirectTarget, hop, if_neg (by decide),
      ← ready_branchTarget]
    rfl
  · rw [step_of_bne hfetch hop, decide_eq_true hne, redirectTarget, hop, if_neg (by decide),
      ← ready_branchTarget]
    rfl
  · rw [step_of_j hfetch hop, redirectTarget, if_pos hop]

/-- A branch whose condition fails drives the default outputs. -/
theorem step_of_not_redirects (hop : wOpcode w = 0x04#6 ∨ wOpcode w = 0x05#6)
    (h : ¬Redirects s w) : step s = .next ((s.ready f w).drive 0 false (pcInFor s f)) := by
  rw [← ready_pcIn s f w]
  obtain hop | hop := hop
  · rw [step_of_beq hfetch hop, decide_eq_false fun heq => h (.inl ⟨hop, heq⟩)]
    rfl
  · rw [step_of_bne hfetch hop, decide_eq_false fun hne => h (.inr (.inl ⟨hop, hne⟩))]
    rfl

end Fetched

/-! ## All that an evaluation can do -/

/-- The error the Execute stage raises for the word `w`, and the address recorded with it (R110). -/
inductive Raises (s : State) (w : Word) : Fault → Word → Prop
  /-- LW or SW out of bounds (R112). -/
  | memory (hop : wOpcode w = 0x23#6 ∨ wOpcode w = 0x2B#6)
      (hle : memWords ≤ (pipelineAddress s w).toNat) :
      Raises s w .memoryOutOfBounds (pipelineAddress s w)
  /-- No supported opcode (R113). -/
  | opcode (hop : wOpcode w ∉ supportedOpcodes) : Raises s w .unsupportedOpcode 0
  /-- No supported function code (R114). -/
  | funct (hop : wOpcode w = 0x00#6) (hfn : wFunct w ∉ supportedFuncts) :
      Raises s w .unsupportedFunct 0

/-- The state after the evaluation of the word `w` fetched from `f` in the state `s`. -/
inductive Evaluates (s : State) (f w : Word) : State → Prop
  /-- ADD, SUB, AND, OR and SLT drive their value. -/
  | rType (hop : wOpcode w = 0x00#6) (hfn : wFunct w ∈ supportedFuncts) :
      Evaluates s f w ((s.ready f w).drive
        (rTypeValue (wFunct w) (s.reg (wRs w)) (s.reg (wRt w))) false (pcInFor s f))
  /-- ADDI writes its sum and drives it. -/
  | addi (hop : wOpcode w = 0x08#6) :
      Evaluates s f w (((s.ready f w).writeReg (wRt w) (pipelineAddress s w)).drive
        (pipelineAddress s w) false (pcInFor s f))
  /-- LW in bounds writes the word it reads and drives it. -/
  | lw (hop : wOpcode w = 0x23#6) (hlt : (pipelineAddress s w).toNat < memWords) :
      Evaluates s f w (((s.ready f w).writeReg (wRt w) (s.word (pipelineAddress s w).toNat)).drive
        (s.word (pipelineAddress s w).toNat) false (pcInFor s f))
  /-- SW in bounds writes a word of memory. -/
  | sw (hop : wOpcode w = 0x2B#6) (hlt : (pipelineAddress s w).toNat < memWords) :
      Evaluates s f w (((s.ready f w).writeWord (pipelineAddress s w).toNat (s.reg (wRt w))).drive
        0 false (pcInFor s f))
  /-- A branch whose condition fails. -/
  | notTaken (hop : wOpcode w = 0x04#6 ∨ wOpcode w = 0x05#6) (hnot : ¬Redirects s w) :
      Evaluates s f w ((s.ready f w).drive 0 false (pcInFor s f))
  /-- A branch whose condition holds, and J. -/
  | taken (h : Redirects s w) :
      Evaluates s f w ((s.ready f w).drive 0 true (redirectTarget s f w))
  /-- An error of the Execute stage. -/
  | raises {e : Fault} {addr : Word} (h : Raises s w e addr) :
      Evaluates s f w ((s.ready f w).executeError e addr)

/-- Every word has an evaluation. -/
theorem exists_evaluates (s : State) (f w : Word) : ∃ t, Evaluates s f w t := by
  by_cases hop : wOpcode w ∈ supportedOpcodes
  · by_cases hred : Redirects s w
    · exact ⟨_, .taken hred⟩
    · simp only [supportedOpcodes, List.mem_cons, List.not_mem_nil, or_false] at hop
      obtain h00 | h02 | h04 | h05 | h08 | h23 | h2B := hop
      · by_cases hfn : wFunct w ∈ supportedFuncts
        · exact ⟨_, .rType h00 hfn⟩
        · exact ⟨_, .raises (.funct h00 hfn)⟩
      · exact absurd (.inr (.inr h02)) hred
      · exact ⟨_, .notTaken (.inl h04) hred⟩
      · exact ⟨_, .notTaken (.inr h05) hred⟩
      · exact ⟨_, .addi h08⟩
      · by_cases hlt : (pipelineAddress s w).toNat < memWords
        · exact ⟨_, .lw h23 hlt⟩
        · exact ⟨_, .raises (.memory (.inl h23) (Nat.le_of_not_lt hlt))⟩
      · by_cases hlt : (pipelineAddress s w).toNat < memWords
        · exact ⟨_, .sw h2B hlt⟩
        · exact ⟨_, .raises (.memory (.inr h2B) (Nat.le_of_not_lt hlt))⟩
  · exact ⟨_, .raises (.opcode hop)⟩

/-- An evaluation is what the step that fetches the word answers. -/
theorem step_of_evaluates {s t : State} {f w : Word} (hfetch : Fetches s f w)
    (h : Evaluates s f w t) : step s = .next t := by
  cases h with
  | rType hop hfn => exact step_of_rType hfetch hop hfn
  | addi hop => exact step_of_addi hfetch hop
  | lw hop hlt => exact step_of_lw hfetch hop hlt
  | sw hop hlt => exact step_of_sw hfetch hop hlt
  | notTaken hop hnot => exact step_of_not_redirects hfetch hop hnot
  | taken h => exact step_of_redirects hfetch h
  | raises h =>
    cases h with
    | memory hop hle => exact step_of_pipelineAddress_le hfetch hop hle
    | opcode hop => exact step_of_unsupportedOpcode hfetch hop
    | funct hop hfn => exact step_of_unsupportedFunct hfetch hop hfn

/-- The step that fetches a word is the evaluation of that word. -/
theorem step_eq_next_iff {s t : State} {f w : Word} (hfetch : Fetches s f w) :
    step s = .next t ↔ Evaluates s f w t := by
  refine ⟨fun hstep => ?_, step_of_evaluates hfetch⟩
  obtain ⟨u, hu⟩ := exists_evaluates s f w
  have hnext := hstep.symm.trans (step_of_evaluates hfetch hu)
  injection hnext with htu
  exact htu ▸ hu

/-! ## What every evaluation keeps and drives -/

section Frame

variable {s t : State} {f w : Word}

/-- The copies of the word on `instr` and on the decoded signals after an evaluation. -/
theorem Evaluates.signals (h : Evaluates s f w t) :
    t.instr = unpack w ∧ t.decoded = unpack w ∧
      t.immediate = immediateOf (unpack w).rt (unpack w).rd := by
  cases h <;> exact ⟨rfl, rfl, rfl⟩

theorem Evaluates.pc_eq (h : Evaluates s f w t) : t.pc = f + 1#32 := by
  cases h <;> rfl

theorem Evaluates.sameParameters (h : Evaluates s f w t) : SameParameters s t := by
  cases h <;> exact ⟨rfl, rfl, rfl⟩

/-- Only a branch or a jump redirects control. -/
theorem opcode_of_redirects (h : Redirects s w) : wOpcode w ∈ [0x04#6, 0x05#6, 0x02#6] := by
  obtain ⟨hop, -⟩ | ⟨hop, -⟩ | hop := h <;> simp [hop]

/-- An error of the Execute stage is raised for a word that redirects nothing. -/
theorem Raises.not_redirects {e : Fault} {addr : Word} (h : Raises s w e addr) :
    ¬Redirects s w := by
  intro hred
  have hop' := opcode_of_redirects hred
  cases h with
  | memory hop => obtain hop | hop := hop <;> simp [hop] at hop'
  | opcode hop =>
    have hsub : [0x04#6, 0x05#6, 0x02#6] ⊆ supportedOpcodes := by decide
    exact hop (hsub hop')
  | funct hop => simp [hop] at hop'

/-- Control is redirected exactly by a branch whose condition holds and by J (R69). -/
theorem Evaluates.branchTaken_iff (h : Evaluates s f w t) :
    t.branchTaken = true ↔ Redirects s w := by
  have hdefault {op : BitVec 6} (hop : wOpcode w = op) (hnot : op ∉ [0x04#6, 0x05#6, 0x02#6]) :
      false = true ↔ Redirects s w :=
    iff_of_false (by decide) fun hred => hnot (hop ▸ opcode_of_redirects hred)
  cases h with
  | rType hop => exact hdefault hop (by decide)
  | addi hop => exact hdefault hop (by decide)
  | lw hop => exact hdefault hop (by decide)
  | sw hop => exact hdefault hop (by decide)
  | notTaken _ hnot => exact iff_of_false (by simp) hnot
  | taken h => exact iff_of_true rfl h
  | raises h => exact iff_of_false (by simp [executeError_eq]) h.not_redirects

/-- Without a redirection the default `pc_out` is driven (R66). -/
theorem Evaluates.pcOut_eq (h : Evaluates s f w t) (hnot : t.branchTaken = false) :
    t.pcOut = pcInFor s f := by
  cases h with
  | taken => exact absurd hnot (by simp)
  | raises => exact ready_pcIn s f w
  | _ => rfl

end Frame

end Sys2Proof
end

section
/-! PROOFS. The step (spec/40_pipeline_and_dispatch.md R70): its three kinds, and what follows for the
program counter, the registers, the memory, the output ports and `FSR`. -/

namespace Sys2Proof

open Sys2Proof.Claims Sys2Proof.Machine

/-! ## The three kinds of step (R70, R73) -/

theorem step_of_fetchOutOfBounds {s : State} (hrun : s.fsr.halted = false)
    (hle : s.program.length ≤ (fetchAt s).toNat) : step s = .next (s.fetchFails (fetchAt s)) :=
  step_fetchFails s hrun ((programAt_none_iff s s.nextIndex).mpr hle)

/-- A machine that is not halted fetches the word at an index below `PROG_LEN`. -/
theorem exists_fetches {s : State} (hrun : s.fsr.halted = false)
    (hlt : (fetchAt s).toNat < s.program.length) : ∃ w, Fetches s (fetchAt s) w :=
  ⟨_, hrun, rfl, List.getElem?_eq_getElem hlt⟩

theorem lt_of_fetches {s : State} {f w : Word} (h : Fetches s f w) : f.toNat < s.program.length := by
  obtain ⟨-, -, hw⟩ := h
  exact programAt_some_lt s f w hw

/-- The state after a step: that of a halted machine, of a failed fetch, or of an evaluation. -/
inductive StepsTo (s : State) : State → Prop
  | halted (h : s.fsr.halted = true) : StepsTo s s
  | fetchFails (hrun : s.fsr.halted = false) (hle : s.program.length ≤ (fetchAt s).toNat) :
      StepsTo s (s.fetchFails (fetchAt s))
  | evaluates {w : Word} {t : State} (hfetch : Fetches s (fetchAt s) w)
      (h : Evaluates s (fetchAt s) w t) : StepsTo s t

theorem exists_stepsTo (s : State) : ∃ t, StepsTo s t := by
  cases hrun : s.fsr.halted with
  | true => exact ⟨s, .halted hrun⟩
  | false =>
    by_cases hlt : (fetchAt s).toNat < s.program.length
    · obtain ⟨w, hfetch⟩ := exists_fetches hrun hlt
      obtain ⟨t, h⟩ := exists_evaluates s (fetchAt s) w
      exact ⟨t, .evaluates hfetch h⟩
    · exact ⟨_, .fetchFails hrun (Nat.le_of_not_lt hlt)⟩

theorem step_of_stepsTo {s t : State} (h : StepsTo s t) : step s = .next t := by
  cases h with
  | halted h => exact step_halted s h
  | fetchFails hrun hle => exact step_of_fetchOutOfBounds hrun hle
  | evaluates hfetch h => exact step_of_evaluates hfetch h

theorem stepsTo_of_step {s t : State} (hstep : step s = .next t) : StepsTo s t := by
  obtain ⟨u, hu⟩ := exists_stepsTo s
  have hnext := hstep.symm.trans (step_of_stepsTo hu)
  injection hnext with htu
  exact htu ▸ hu

/-! ## What an evaluation writes (R14, R42, R115) -/

section Writes

variable {s t : State} {f w : Word}

/-- An error of the Execute stage writes no register and no memory, and drives the defaults. -/
theorem executeError_ready_frame (s : State) (f w : Word) (e : Fault) (addr : Word) :
    let t := (s.ready f w).executeError e addr
    SameRegs s t ∧ SameMem s t ∧ Outputs t 0 false (pcInFor s f) := by
  obtain ⟨-, hout, hregs, hmem, -⟩ := executeError_effect (s.ready f w) e addr
  exact ⟨hregs, hmem, ready_pcIn s f w ▸ hout⟩

/-- Only ADDI, and LW in bounds, write a register, and only `x[rt]`. -/
theorem Evaluates.of_reg_ne (h : Evaluates s f w t) {r : RegNum} (hr : t.reg r ≠ s.reg r) :
    r = wRt w ∧
      (wOpcode w = 0x08#6 ∨ (wOpcode w = 0x23#6 ∧ (pipelineAddress s w).toNat < memWords)) := by
  have hrt {v : Word} (hr : ((s.ready f w).writeReg (wRt w) v).reg r ≠ s.reg r) : r = wRt w := by
    by_contra hne
    exact hr (reg_writeReg_other _ _ r v hne)
  cases h with
  | addi hop => exact ⟨hrt hr, .inl hop⟩
  | lw hop hlt => exact ⟨hrt hr, .inr ⟨hop, hlt⟩⟩
  | rType => exact absurd rfl hr
  | sw => exact absurd rfl hr
  | notTaken => exact absurd rfl hr
  | taken => exact absurd rfl hr
  | raises => exact absurd rfl hr

/-- Only SW in bounds writes memory, and only the word at its effective address. -/
theorem Evaluates.of_word_ne (h : Evaluates s f w t) {a : Nat} (ha : t.word a ≠ s.word a) :
    wOpcode w = 0x2B#6 ∧ a = (pipelineAddress s w).toNat ∧ a < memWords := by
  cases h with
  | sw hop hlt =>
    have haddr : a = (pipelineAddress s w).toNat := by
      by_contra hne
      exact ha (word_writeWord_other _ _ a _ hne)
    exact ⟨hop, haddr, haddr ▸ hlt⟩
  | rType => exact absurd rfl ha
  | addi => exact absurd rfl ha
  | lw => exact absurd rfl ha
  | notTaken => exact absurd rfl ha
  | taken => exact absurd rfl ha
  | raises => exact absurd rfl ha

/-- The Execute stage is stage 3 (R19). -/
theorem Raises.stage_eq {e : Fault} {addr : Word} (h : Raises s w e addr) : faultStage e = 3 := by
  cases h <;> rfl

/-- The kind of word fixes the code and the address (R110). -/
theorem Raises.code_and_addr {e : Fault} {addr : Word} (h : Raises s w e addr) :
    (faultCode e = 2 ↔ wOpcode w = 0x23#6 ∨ wOpcode w = 0x2B#6) ∧
      (faultCode e = 2 → addr = pipelineAddress s w ∧ memWords ≤ addr.toNat) ∧
      (faultCode e = 3 ↔ wOpcode w ∉ supportedOpcodes) ∧
      (faultCode e = 4 ↔ wOpcode w = 0x00#6) ∧ (faultCode e ≠ 2 → addr = 0) := by
  cases h with
  | memory hop hle =>
    refine ⟨iff_of_true rfl hop, fun _ => ⟨rfl, hle⟩, iff_of_false (by decide) ?_,
      iff_of_false (by decide) ?_, fun hne => absurd rfl hne⟩
    · obtain hop | hop := hop <;> simp [hop]
    · obtain hop | hop := hop <;> simp [hop]
  | opcode hop =>
    have hother {op : BitVec 6} (hmem : op ∈ supportedOpcodes) : wOpcode w ≠ op :=
      fun heq => hop (heq ▸ hmem)
    exact ⟨iff_of_false (by decide) (not_or.mpr ⟨hother (by decide), hother (by decide)⟩),
      fun h => absurd h (by decide), iff_of_true rfl hop,
      iff_of_false (by decide) (hother (by decide)), fun _ => rfl⟩
  | funct hop =>
    exact ⟨iff_of_false (by decide) (by simp [hop]), fun h => absurd h (by decide),
      iff_of_false (by decide) (by simp [hop]), iff_of_true rfl hop, fun _ => rfl⟩

/-- An evaluation leaves `FSR` as it is or raises one error. -/
theorem Evaluates.fsr_cases (h : Evaluates s f w t) :
    t.fsr = s.fsr ∨ ∃ e addr, Raises s w e addr ∧ t = (s.ready f w).executeError e addr ∧
      t.fsr = recordFault s.fsr e f addr s.fatalPolicy := by
  cases h with
  | raises h =>
    obtain ⟨-, -, hfsr, -⟩ := ready_executeError_effect s f w _ _
    exact .inr ⟨_, _, h, rfl, hfsr⟩
  | rType => exact .inl rfl
  | addi => exact .inl rfl
  | lw => exact .inl rfl
  | sw => exact .inl rfl
  | notTaken => exact .inl rfl
  | taken => exact .inl rfl

/-- A step leaves `FSR` as it is or records one error. -/
theorem StepsTo.fsr_cases (h : StepsTo s t) :
    t.fsr = s.fsr ∨ ∃ e index addr, t.fsr = recordFault s.fsr e index addr s.fatalPolicy := by
  cases h with
  | halted => exact .inl rfl
  | fetchFails => exact .inr ⟨_, _, _, fetchFails_fsr s _⟩
  | evaluates _ h =>
    obtain hsame | ⟨e, addr, -, -, hfsr⟩ := h.fsr_cases
    · exact .inl hsame
    · exact .inr ⟨e, _, addr, hfsr⟩

end Writes

/-! ## The statements about every step -/

/-- Settles O25. -/
theorem stepRunsTheDecodedInstruction : Obligations.StepRunsTheDecodedInstruction := by
  intro s f w i hfetch hd
  rw [afterDecode_eq_ready]
  exact step_of_decodeWord_eq_ok hfetch hd

/-- Settles O26. -/
theorem stepAlwaysAnswersNext : Obligations.StepAlwaysAnswersNext := fun s =>
  (exists_stepsTo s).imp fun _ => step_of_stepsTo

/-- Settles O27. -/
theorem pcAfterStep : Obligations.PcAfterStep := by
  intro s t hstep
  cases stepsTo_of_step hstep with
  | halted h => exact ⟨fun _ => rfl, fun hrun => absurd h (ne_true_of_eq_false hrun)⟩
  | fetchFails hrun hle =>
    exact ⟨fun h => absurd h (ne_true_of_eq_false hrun), fun _ => (if_neg hle.not_gt).symm⟩
  | evaluates hfetch h =>
    have hlt := lt_of_fetches hfetch
    obtain ⟨hrun, -⟩ := hfetch
    refine ⟨fun hh => absurd hh (ne_true_of_eq_false hrun), fun _ => ?_⟩
    rw [h.pc_eq, if_pos hlt]

/-- Settles O28. -/
theorem registersWrittenOnlyByAddiLw : Obligations.RegistersWrittenOnlyByAddiLw := by
  intro s t hstep r hr
  cases stepsTo_of_step hstep with
  | halted => exact absurd rfl hr
  | fetchFails => exact absurd rfl hr
  | evaluates hfetch h => exact ⟨_, _, hfetch, h.of_reg_ne hr⟩

/-- Settles O29. -/
theorem memoryWrittenOnlyBySw : Obligations.MemoryWrittenOnlyBySw := by
  intro s t hstep a ha
  cases stepsTo_of_step hstep with
  | halted => exact absurd rfl ha
  | fetchFails => exact absurd rfl ha
  | evaluates hfetch h => exact ⟨_, _, hfetch, h.of_word_ne ha⟩

theorem StepsTo.sameParameters {s t : State} (h : StepsTo s t) : SameParameters s t := by
  cases h with
  | halted => exact ⟨rfl, rfl, rfl⟩
  | fetchFails => exact ⟨rfl, rfl, rfl⟩
  | evaluates _ h => exact h.sameParameters

/-- Settles O30. -/
theorem programAndParametersFixed : Obligations.ProgramAndParametersFixed := fun _ _ hstep =>
  (stepsTo_of_step hstep).sameParameters

/-- Settles O31. -/
theorem onlyTransfersRedirect : Obligations.OnlyTransfersRedirect := by
  intro s t f w hfetch hstep
  have h := (step_eq_next_iff hfetch).mp hstep
  exact ⟨h.branchTaken_iff, h.pcOut_eq⟩

/-- Settles O32: either way the word is the one at the fetch index. -/
theorem noDelaySlot : Obligations.NoDelaySlot := by
  intro t w hrun
  have hfetched {f : Word} (hf : f = fetchAt t) (hw : t.program[f.toNat]? = some w) :
      ∃ u, step t = .next u ∧ u.instr = unpack w ∧ u.pc = f + 1#32 := by
    obtain ⟨u, hu⟩ := exists_evaluates t f w
    obtain ⟨hinstr, -⟩ := hu.signals
    exact ⟨u, step_of_evaluates ⟨hrun, hf, hw⟩ hu, hinstr, hu.pc_eq⟩
  exact ⟨fun htaken => hfetched (if_pos htaken).symm,
    fun hnot => hfetched (if_neg (ne_true_of_eq_false hnot)).symm⟩

/-! ## Fatal errors -/

/-- Settles O36. -/
theorem raiseRecordsTheFirstError : Obligations.RaiseRecordsTheFirstError := by
  intro s e index addr
  refine ⟨rfl, rfl, rfl, by simp [recordFault], fun hfirst => ?_, fun hlater => ?_⟩
  · rw [raise_fsr, recordFault_first _ _ _ _ _ hfirst]
    cases e <;> exact ⟨rfl, rfl, rfl, rfl⟩
  · rw [raise_fsr, recordFault_later _ _ _ _ _ hlater]
    exact ⟨rfl, rfl, rfl, rfl⟩

/-- Settles O37. -/
theorem fetchOutOfBoundsRule : Obligations.FetchOutOfBoundsRule := by
  intro s hrun hle
  refine ⟨_, step_of_fetchOutOfBounds hrun hle, rfl, ⟨_, _, fetchFails_fsr s _⟩, ?_⟩
  exact ⟨fun _ => rfl, fun _ => rfl, ⟨rfl, rfl, rfl⟩, rfl, rfl, rfl, rfl, rfl, rfl, rfl⟩

/-- Settles O41: the record is that of a first error, and its kind fixes the code and the address. -/
theorem executeErrorsRecordTheFetchIndex : Obligations.ExecuteErrorsRecordTheFetchIndex := by
  intro s t f w hfetch hstep hfirst hfaulted
  have heval := (step_eq_next_iff hfetch).mp hstep
  obtain ⟨hrun, -⟩ := hfetch
  obtain hsame | ⟨e, addr, hraise, -, hfsr⟩ := heval.fsr_cases
  · rw [hsame, hfirst] at hfaulted
    exact absurd hfaulted (by decide)
  · rw [recordFault_first _ _ _ _ _ hfirst, hrun, Bool.false_or] at hfsr
    rw [hfsr]
    exact ⟨hraise.stage_eq, rfl, rfl, decide_eq_true_iff, hraise.code_and_addr⟩

/-- Settles O42: a step leaves `FSR` as it is or counts one error, and a later error changes nothing
but `halted` and `count`. -/
theorem firstErrorIsKept : Obligations.FirstErrorIsKept := by
  intro s t hstep
  obtain hsame | ⟨e, index, addr, hfsr⟩ := (stepsTo_of_step hstep).fsr_cases
  · rw [hsame]
    exact ⟨.inl rfl, fun _ => rfl, fun h => ⟨h, rfl, rfl, rfl, rfl⟩⟩
  · rw [hfsr]
    refine ⟨.inr rfl, fun h => absurd h (Nat.succ_ne_self _), fun h => ?_⟩
    rw [recordFault_later _ _ _ _ _ h]
    exact ⟨h, rfl, rfl, rfl, rfl⟩

/-- Settles O43. -/
theorem errorsArePrecise : Obligations.ErrorsArePrecise := by
  intro s t hstep hcount
  cases stepsTo_of_step hstep with
  | halted => exact absurd rfl hcount
  | fetchFails _ hle =>
    exact ⟨fun _ => rfl, fun _ => rfl, ⟨rfl, rfl, rfl⟩, fun hlt => absurd hlt hle.not_gt,
      fun _ => ⟨⟨rfl, rfl, rfl⟩, rfl, rfl⟩⟩
  | evaluates hfetch h =>
    obtain hsame | ⟨e, addr, -, rfl, -⟩ := h.fsr_cases
    · exact absurd (congrArg Fsr.count hsame) hcount
    · obtain ⟨hregs, hmem, hout⟩ := executeError_ready_frame s (fetchAt s) _ e addr
      exact ⟨hregs, hmem, h.sameParameters, fun _ => ⟨hout, h.pc_eq⟩,
        fun hle => absurd (lt_of_fetches hfetch) hle.not_gt⟩

end Sys2Proof
end

section
/-! PROOFS. Instructions fetched from the Program: the address `x[rs] + rt * 65536 + rd` of ADDI, LW and
SW (spec/42_addi.md R92, spec/43_load_store.md R96) and the index a branch or a jump leads to
(spec/44_branch_jump.md R105). -/

namespace Sys2Proof

open Sys2Proof.Claims Sys2Proof.Machine

/-! ## The address (R92, R96) -/

theorem pipelineAddress_toNat (s : State) (w : Word) :
    (pipelineAddress s w).toNat =
      ((s.reg (wRs w)).toNat + (wRt w).toNat * 65536 + (wRd w).toNat) % 2 ^ 32 := by
  rw [BitVec.toNat_add, BitVec.toNat_ofNat, Nat.add_mod_mod, Nat.add_assoc]

/-! ## The targets (R105) -/

/-- The immediate of a word, before it is cut to 32 bits, is below 2^21. -/
theorem immediate_lt (w : Word) : (wRt w).toNat * 65536 + (wRd w).toNat < 2 ^ 21 := by
  have hrt : (wRt w).toNat < 2 ^ 5 := (wRt w).isLt
  have hrd : (wRd w).toNat < 2 ^ 5 := (wRd w).isLt
  omega

/-- The immediate times four, as the targets use it; nothing is shifted out. -/
theorem pipelineImmediate_shiftLeft_two (w : Word) :
    pipelineImmediate w <<< 2 = BitVec.ofNat 32 ((wRt w).toNat * 262144 + 4 * (wRd w).toNat) := by
  have himm : (pipelineImmediate w).toNat = (wRt w).toNat * 65536 + (wRd w).toNat := by
    rw [BitVec.toNat_ofNat]
    exact Nat.mod_eq_of_lt ((immediate_lt w).trans (by decide))
  rw [← ofNat_four_mul_toNat, himm]
  congr 1
  omega

/-- A sum less a number, as an integer modulo 2^32 (R6). -/
theorem add_ofNat_sub_ofNat (v : Word) (n k : Nat) :
    v + BitVec.ofNat 32 n - BitVec.ofNat 32 k = BitVec.ofInt 32 (v.toNat + n - k) := by
  rw [sub_eq_add_neg (v.toNat + n : Int), BitVec.ofInt_add, BitVec.ofInt_add, BitVec.ofInt_neg,
    BitVec.ofInt_natCast, BitVec.ofInt_natCast, BitVec.ofInt_natCast, BitVec.ofNat_toNat,
    BitVec.setWidth_eq]
  exact BitVec.sub_eq_add_neg _ _

/-- The index a taken branch leads to when `pc_in` is the fetch index and `j` more (R105). -/
theorem branchTargetAt_eq_ofInt {s : State} {f : Word} {j : Nat} (hj : j ≤ 4)
    (hpc : pcInFor s f = f + BitVec.ofNat 32 j) (w : Word) :
    branchTargetAt s f w = BitVec.ofInt 32
      (f.toNat + (wRt w).toNat * 262144 + 4 * (wRd w).toNat - ((4 - j : Nat) : Int)) := by
  have hfour : 4#32 = BitVec.ofNat 32 (4 - j) + BitVec.ofNat 32 j := by
    rw [← BitVec.ofNat_add, Nat.sub_add_cancel hj]
  have hsum := add_ofNat_sub_ofNat f ((wRt w).toNat * 262144 + 4 * (wRd w).toNat) (4 - j)
  rw [Nat.cast_add, Nat.cast_mul, Nat.cast_mul, ← add_assoc] at hsum
  rw [branchTargetAt, pipelineImmediate_shiftLeft_two, hpc, hfour]
  refine Eq.trans ?_ hsum
  ring

theorem pcInFor_next {s : State} (h : s.pcinMode = .next) (f : Word) : pcInFor s f = f + 1#32 :=
  if_pos h

theorem pcInFor_current {s : State} (h : s.pcinMode = .current) (f : Word) : pcInFor s f = f :=
  if_neg (by simp [h])

/-- A word below 2^28 has no bit in its top four. -/
theorem and_topFour_eq_zero {v : Word} (h : v.toNat < 2 ^ 28) : v &&& 0xF0000000#32 = 0#32 := by
  have hmask : 0xF0000000#32 = BitVec.allOnes 4 ++ 0#28 := by decide
  have hv : v = 0#4 ++ v.setWidth 28 := by
    refine BitVec.eq_of_toNat_eq ?_
    rw [BitVec.toNat_append, BitVec.toNat_setWidth, Nat.mod_eq_of_lt h]
    simp
  rw [hv, hmask]
  exact BitVec.and_append.trans (by simp)

/-- With `pc_in + 4` below 2^28 the target of J is its immediate times four. -/
theorem jumpTargetAt_toNat {s : State} {f w : Word} (h : (pcInFor s f).toNat + 4 < 2 ^ 28) :
    (jumpTargetAt s f w).toNat = (wRt w).toNat * 262144 + 4 * (wRd w).toNat := by
  have hpc : (pcInFor s f + 4#32).toNat < 2 ^ 28 := by
    rw [BitVec.toNat_add]
    exact (Nat.mod_le _ _).trans_lt h
  have himm := immediate_lt w
  rw [jumpTargetAt, and_topFour_eq_zero hpc, BitVec.zero_or, pipelineImmediate_shiftLeft_two,
    BitVec.toNat_ofNat]
  omega

/-! ## The statements -/

/-- Settles O33. -/
theorem targetIndicesThroughThePipeline : Obligations.TargetIndicesThroughThePipeline := by
  intro s f w hfetch
  refine ⟨fun hred hop => ?_, fun hop hlt => ?_⟩
  · have htarget : redirectTarget s f w = branchTargetAt s f w := if_neg hop
    refine ⟨_, step_of_redirects hfetch hred, rfl, fun hmode => ?_, fun hmode => ?_⟩
    · exact htarget.trans (branchTargetAt_eq_ofInt (j := 1) (by decide) (pcInFor_next hmode f) w)
    · refine htarget.trans (branchTargetAt_eq_ofInt (j := 0) (by decide) ?_ w)
      rw [pcInFor_current hmode, BitVec.add_zero]
  · exact ⟨_, step_of_j hfetch hop, rfl, jumpTargetAt_toNat hlt⟩

/-- Settles O34. -/
theorem addiThroughThePipeline : Obligations.AddiThroughThePipeline := by
  intro s f w hfetch hop
  refine ⟨_, step_of_addi hfetch hop, ?_, by simp, fun r hr => reg_writeReg_other _ _ r _ hr,
    fun _ => rfl, rfl, rfl, rfl⟩
  rw [reg_drive, reg_writeReg_same]
  exact pipelineAddress_toNat s w

/-- Settles O35. -/
theorem loadStoreThroughThePipeline : Obligations.LoadStoreThroughThePipeline := by
  intro s f w hfetch hwf
  rw [← pipelineAddress_toNat]
  refine ⟨fun hop hlt => ⟨_, step_of_lw hfetch hop hlt, by simp, rfl,
      fun r hr => reg_writeReg_other _ _ r _ hr, fun _ => rfl, rfl, rfl⟩,
    fun hop hlt => ⟨_, step_of_sw hfetch hop hlt, word_writeWord_same _ _ _ hwf,
      fun b hb => word_writeWord_other _ _ b _ hb, rfl, fun _ => rfl, rfl, rfl⟩⟩

end Sys2Proof
end

section
/-! PROOFS. Runs (spec/40_pipeline_and_dispatch.md R71, R73): a halted machine, the end of a run under
`halt`, and a failed fetch that repeats under `continue`. -/

namespace Sys2Proof

open Sys2Proof.Claims Sys2Proof.Machine

theorem runEdges_halted (n : Nat) {s : State} (h : s.fsr.halted = true) :
    runEdges n s = .next s := by
  induction n with
  | zero => rfl
  | succ n ih => rw [runEdges_succ n s s (step_halted s h), ih]

/-- Every error halts the machine under `halt`. -/
theorem recordFault_halt_halted (f : Fsr) (e : Fault) (index addr : Word) :
    (recordFault f e index addr .halt).halted = true := by
  simp [recordFault]

/-! ## A failed fetch under `continue` (R73) -/

/-- The state after `n + 1` edges of a machine under `continue` whose fetch fails. -/
def failedFetches (s : State) (n : Nat) : State :=
  { s with
    pc := fetchAt s
    fsr := { recordFault s.fsr .fetchOutOfBounds (fetchAt s) 0 .continue with
      count := s.fsr.count + n + 1 } }

/-- The override is applied again to the same index. -/
theorem fetchAt_failedFetches (s : State) (n : Nat) : fetchAt (failedFetches s n) = fetchAt s := by
  cases htaken : s.branchTaken <;> simp [failedFetches, fetchAt, htaken]

section FailedFetch

variable {s : State} (hpolicy : s.fatalPolicy = .continue)
include hpolicy

theorem fetchFails_eq_failedFetches : s.fetchFails (fetchAt s) = failedFetches s 0 := by
  simp [State.fetchFails, State.raise, failedFetches, recordFault, hpolicy]

/-- One more failed fetch counts one more error, and keeps the record of the first. -/
theorem step_failedFetches (hrun : s.fsr.halted = false)
    (hle : s.program.length ≤ (fetchAt s).toNat) (n : Nat) :
    step (failedFetches s n) = .next (failedFetches s (n + 1)) := by
  have hrun' : (failedFetches s n).fsr.halted = false := by
    simp [failedFetches, recordFault, hrun]
  have hat := fetchAt_failedFetches s n
  rw [step_of_fetchOutOfBounds hrun' (by rw [hat]; exact hle), hat, State.fetchFails, State.raise,
    recordFault_later _ _ _ _ _ rfl]
  simp [failedFetches, hpolicy, recordFault, Nat.add_assoc]

end FailedFetch

/-! ## The statements -/

/-- Settles O44. -/
theorem haltedMachineNeverChanges : Obligations.HaltedMachineNeverChanges := fun n _ h =>
  runEdges_halted n h

/-- Settles O45: the error halts the machine. -/
theorem haltPolicyEndsTheRun : Obligations.HaltPolicyEndsTheRun := by
  intro n s t hpolicy hstep hcount
  rw [runEdges_succ n s t hstep]
  obtain hsame | ⟨e, index, addr, hfsr⟩ := (stepsTo_of_step hstep).fsr_cases
  · exact absurd (congrArg Fsr.count hsame) hcount
  · refine runEdges_halted n ?_
    rw [hfsr, hpolicy, recordFault_halt_halted]

/-- Settles O46, by induction on the number of edges. -/
theorem failedFetchRepeatsForEver : Obligations.FailedFetchRepeatsForEver := by
  intro n s hpolicy hrun hle
  change runEdges (n + 1) s = .next (failedFetches s n)
  induction n with
  | zero =>
    rw [runEdges_succ 0 s _ (step_of_fetchOutOfBounds hrun hle), runEdges_zero,
      fetchFails_eq_failedFetches hpolicy]
  | succ n ih =>
    rw [runEdges_add (n + 1) 1 s _ ih, runEdges_succ 0 _ _ (step_failedFetches hpolicy hrun hle n),
      runEdges_zero]

end Sys2Proof
end

section
/-! PROOFS. The invariant of the machine: it holds after reset, every step keeps it, and so does every
run. -/

namespace Sys2Proof

open Sys2Proof.Claims Sys2Proof.Machine

/-! ## The legal values of `FSR` (R19, R110, R116) -/

theorem fsrLegal_clear (policy : FatalPolicy) : FsrLegal policy Fsr.clear where
  clear _ := rfl
  counted h := absurd h (by decide)
  code h := absurd h (by decide)
  stage h := absurd h (by decide)
  addr := rfl
  halted := rfl

/-- The code of every error is 1 to 4, and only Fetch, stage 1, raises code 1. -/
theorem faultCode_faultStage (e : Fault) :
    (1 ≤ (faultCode e).toNat ∧ (faultCode e).toNat ≤ 4) ∧
      faultStage e = if faultCode e = 1 then 1 else 3 := by
  cases e <;> decide

/-- Recording an error keeps the legal values, when the address given with it is that of its kind. -/
theorem fsrLegal_recordFault {policy : FatalPolicy} {f : Fsr} (h : FsrLegal policy f) {e : Fault}
    {addr : Word} (index : Word)
    (haddr : if faultCode e = 2 then memWords ≤ addr.toNat else addr = 0) :
    FsrLegal policy (recordFault f e index addr policy) := by
  have hhalted : (f.halted || decide (policy = .halt)) = decide (policy = .halt) := by
    rw [h.halted]
    cases f.faulted <;> simp
  cases hf : f.faulted with
  | false =>
    obtain ⟨hcode, hstage⟩ := faultCode_faultStage e
    rw [recordFault_first f e index addr policy hf]
    exact ⟨fun h => absurd h (by simp), fun _ => Nat.succ_pos _, fun _ => hcode, fun _ => hstage,
      haddr, hhalted⟩
  | true =>
    rw [recordFault_later f e index addr policy hf]
    exact ⟨fun hc => absurd hf (ne_true_of_eq_false hc), fun _ => Nat.succ_pos _, h.code, h.stage,
      h.addr, by rw [hhalted]; simp [hf]⟩

/-- The Execute stage gives the address of its kind with every error. -/
theorem Raises.addr_legal {s : State} {w : Word} {e : Fault} {addr : Word}
    (h : Raises s w e addr) : if faultCode e = 2 then memWords ≤ addr.toNat else addr = 0 := by
  cases h with
  | memory _ hle => exact hle
  | opcode => rfl
  | funct => rfl

/-! ## One step (R15, R19, R22, R48, R49, R62, R69) -/

section Step

variable {s t : State} {f w : Word}

/-- An evaluation keeps the canonical form of memory. -/
theorem Evaluates.memWf (h : Evaluates s f w t) (hwf : s.mem.wf = true) : t.mem.wf = true := by
  cases h with
  | sw _ hlt => exact memPut_wf s.mem _ _ hwf hlt
  | rType => exact hwf
  | addi => exact hwf
  | lw => exact hwf
  | notTaken => exact hwf
  | taken => exact hwf
  | raises => exact hwf

theorem Evaluates.fsrLegal (h : Evaluates s f w t) (hlegal : FsrLegal s.fatalPolicy s.fsr) :
    FsrLegal s.fatalPolicy t.fsr := by
  obtain hsame | ⟨e, addr, hraise, -, hfsr⟩ := h.fsr_cases
  · exact hsame ▸ hlegal
  · exact hfsr ▸ fsrLegal_recordFault hlegal f hraise.addr_legal

/-- A word that redirects control leaves `result = 0`. -/
theorem Evaluates.result_of_taken (h : Evaluates s f w t) (htaken : t.branchTaken = true) :
    t.result = 0 := by
  cases h with
  | taken => rfl
  | notTaken => rfl
  | raises => rfl
  | rType => exact absurd htaken (by simp)
  | addi => exact absurd htaken (by simp)
  | lw => exact absurd htaken (by simp)
  | sw => rfl

/-- The index after one that is below `PROG_LEN` is at most `PROG_LEN`. -/
theorem toNat_add_one_le {n : Nat} (hlt : f.toNat < n) :
    (f + 1#32).toNat ≤ n := by
  rw [BitVec.toNat_add]
  exact (Nat.mod_le _ _).trans hlt

theorem inv_evaluates (hinv : Inv s) (hlt : f.toNat < s.program.length) (h : Evaluates s f w t) :
    Inv t := by
  obtain ⟨hinstr, hdecoded, himm⟩ := h.signals
  obtain ⟨hprogram, hmode, hpolicy⟩ := h.sameParameters
  refine ⟨h.memWf hinv.memWf, hprogram ▸ hinv.programBound, hdecoded.trans hinstr.symm,
    hinstr ▸ himm, hpolicy ▸ h.fsrLegal hinv.fsrLegal, fun _ => ?_, fun hnext hnot => ?_,
    h.result_of_taken⟩
  · rw [h.pc_eq, hprogram]
    exact toNat_add_one_le hlt
  · rw [h.pcOut_eq hnot, h.pc_eq, pcInFor_next (hmode ▸ hnext)]

theorem inv_fetchFails (hinv : Inv s) : Inv (s.fetchFails (fetchAt s)) where
  memWf := hinv.memWf
  programBound := hinv.programBound
  decodedCopies := hinv.decodedCopies
  immediateCopies := hinv.immediateCopies
  fsrLegal := fsrLegal_recordFault hinv.fsrLegal _ rfl
  pcWithin h := absurd h (by simp [recordFault])
  nextPc hnext hnot := (hinv.nextPc hnext hnot).trans (if_neg (ne_true_of_eq_false hnot)).symm
  takenResult := hinv.takenResult

theorem inv_stepsTo (hinv : Inv s) (h : StepsTo s t) : Inv t := by
  cases h with
  | halted => exact hinv
  | fetchFails => exact inv_fetchFails hinv
  | evaluates hfetch h => exact inv_evaluates hinv (lt_of_fetches hfetch) h

end Step

/-! ## The statements -/

/-- Settles O47. -/
theorem resetHasTheInvariant : Obligations.ResetHasTheInvariant where
  memWf := reset_mem_wf
  programBound := by decide
  decodedCopies := rfl
  immediateCopies := by decide
  fsrLegal := fsrLegal_clear _
  pcWithin _ := Nat.le_refl 0
  nextPc _ _ := rfl
  takenResult _ := rfl

/-- Settles O48. -/
theorem stepKeepsTheInvariant : Obligations.StepKeepsTheInvariant := fun _ _ hinv hstep =>
  inv_stepsTo hinv (stepsTo_of_step hstep)

/-- Settles O49, by induction on the number of edges. -/
theorem runKeepsTheInvariant : Obligations.RunKeepsTheInvariant := by
  intro n
  induction n with
  | zero => exact fun s hinv => ⟨s, runEdges_zero s, hinv⟩
  | succ n ih =>
    intro s hinv
    obtain ⟨t, h⟩ := exists_stepsTo s
    rw [runEdges_succ n s t (step_of_stepsTo h)]
    exact ih t (inv_stepsTo hinv h)

/-- Settles O50: an instruction not taken leaves `pc_out = pc`. -/
theorem unconditionalOverrideIsTheSame : Obligations.UnconditionalOverrideIsTheSame := by
  intro s hinv hmode
  cases htaken : s.branchTaken with
  | true => exact if_pos htaken
  | false => exact (if_neg (ne_true_of_eq_false htaken)).trans (hinv.nextPc hmode htaken).symm

/-- Settles O51. -/
theorem resetValues : Obligations.ResetValues := by
  refine ⟨fun r => ?_, fun _ => rfl, rfl, rfl, rfl, rfl, rfl, ⟨rfl, rfl, rfl⟩, rfl, rfl, rfl, rfl⟩
  exact Vector.getElem_replicate r.isLt

end Sys2Proof
end

section
/-! PROOFS. What a step does not depend on: the fields an instruction does not use
(spec/30_encoding.md R56), the held signals (spec/10_state.md R24), and `FSR` (R18). -/

namespace Sys2Proof

open Sys2Proof.Claims Sys2Proof.Machine

/-! ## Ignored fields (R56) -/

/-- The fields that two words of one instruction agree on: `rt` always, `rs` but for J, `rd` but for
R-type, `funct` for R-type. -/
theorem fields_of_sameUsedFields {w w' : Word} (h : SameUsedFields w w') :
    wRt w' = wRt w ∧ (wOpcode w ≠ 0x02#6 → wRs w' = wRs w) ∧
      (wOpcode w ≠ 0x00#6 → wRd w' = wRd w) ∧ (wOpcode w = 0x00#6 → wFunct w' = wFunct w) := by
  obtain ⟨-, hrType, hjump, hother⟩ := h
  by_cases h0 : wOpcode w = 0x00#6
  · obtain ⟨hrs, hrt, hfn⟩ := hrType h0
    exact ⟨hrt.symm, fun _ => hrs.symm, fun hne => absurd h0 hne, fun _ => hfn.symm⟩
  · by_cases h2 : wOpcode w = 0x02#6
    · obtain ⟨hrt, hrd⟩ := hjump h2
      exact ⟨hrt.symm, fun hne => absurd h2 hne, fun _ => hrd.symm, fun h => absurd h h0⟩
    · obtain ⟨hrs, hrt, hrd⟩ := hother ⟨h0, h2⟩
      exact ⟨hrt.symm, fun _ => hrs.symm, fun _ => hrd.symm, fun h => absurd h h0⟩

/-- Registers do not depend on the Program. -/
theorem reg_withProgram (s : State) (p : List Word) (r : RegNum) :
    { s with program := p }.reg r = s.reg r := rfl

/-- The same outputs driven after fetching another word are the same effect. -/
theorem ready_drive_sameEffect (s : State) (f w w' : Word) (p : List Word) (res : Word)
    (taken : Bool) (npc : Word) :
    SameEffect ((s.ready f w).drive res taken npc)
      (({ s with program := p }.ready f w').drive res taken npc) :=
  ⟨rfl, rfl, rfl, rfl, rfl, rfl, rfl⟩

section IgnoredFields

variable {s t : State} {f w w' : Word} (p : List Word) (huse : SameUsedFields w w')
include huse

theorem pipelineImmediate_of_sameUsedFields (hop : wOpcode w ≠ 0x00#6) :
    pipelineImmediate w' = pipelineImmediate w := by
  obtain ⟨hrt, -, hrd, -⟩ := fields_of_sameUsedFields huse
  rw [pipelineImmediate, hrt, hrd hop]

theorem pipelineAddress_of_sameUsedFields (hop : wOpcode w ≠ 0x00#6) (hop' : wOpcode w ≠ 0x02#6) :
    pipelineAddress { s with program := p } w' = pipelineAddress s w := by
  obtain ⟨-, hrs, -⟩ := fields_of_sameUsedFields huse
  rw [pipelineAddress, pipelineImmediate_of_sameUsedFields huse hop, hrs hop', reg_withProgram]

theorem redirects_of_sameUsedFields :
    Redirects { s with program := p } w' ↔ Redirects s w := by
  obtain ⟨hrt, hrs, -⟩ := fields_of_sameUsedFields huse
  have hop : wOpcode w' = wOpcode w := huse.1.symm
  by_cases h2 : wOpcode w = 0x02#6
  · exact iff_of_true (.inr (.inr (hop.trans h2))) (.inr (.inr h2))
  · rw [Redirects, hop, hrs h2, hrt]
    exact Iff.rfl

theorem redirectTarget_of_sameUsedFields (hop : wOpcode w ≠ 0x00#6) :
    redirectTarget { s with program := p } f w' = redirectTarget s f w := by
  simp only [redirectTarget, jumpTargetAt, branchTargetAt, ← huse.1,
    pipelineImmediate_of_sameUsedFields huse hop]

theorem Raises.of_sameUsedFields {e : Fault} {addr : Word} (h : Raises s w e addr) :
    Raises { s with program := p } w' e addr := by
  have hop' : wOpcode w' = wOpcode w := huse.1.symm
  cases h with
  | memory hop hle =>
    have haddr := pipelineAddress_of_sameUsedFields (s := s) p huse
      (by obtain hop | hop := hop <;> simp [hop]) (by obtain hop | hop := hop <;> simp [hop])
    rw [← haddr] at hle ⊢
    exact .memory (hop' ▸ hop) hle
  | opcode hop => exact .opcode (hop' ▸ hop)
  | funct hop hfn =>
    obtain ⟨-, -, -, hfn'⟩ := fields_of_sameUsedFields huse
    exact .funct (hop' ▸ hop) (hfn' hop ▸ hfn)

/-- Evaluations of two words that agree on the used fields have the same effect. -/
theorem Evaluates.of_sameUsedFields (h : Evaluates s f w t) :
    ∃ t', Evaluates { s with program := p } f w' t' ∧ SameEffect t t' := by
  have hop' : wOpcode w' = wOpcode w := huse.1.symm
  obtain ⟨hrt, hrs, -, hfn'⟩ := fields_of_sameUsedFields huse
  have haddr {op : BitVec 6} (hop : wOpcode w = op) (h0 : op ≠ 0x00#6) (h2 : op ≠ 0x02#6) :
      pipelineAddress { s with program := p } w' = pipelineAddress s w :=
    pipelineAddress_of_sameUsedFields p huse (hop ▸ h0) (hop ▸ h2)
  cases h with
  | rType hop hfn =>
    refine ⟨_, .rType (hop' ▸ hop) (hfn' hop ▸ hfn), ?_⟩
    rw [hfn' hop, hrs (by simp [hop]), hrt, reg_withProgram, reg_withProgram]
    exact ready_drive_sameEffect s f w w' p _ _ _
  | addi hop =>
    have ha := haddr hop (by decide) (by decide)
    refine ⟨_, .addi (hop' ▸ hop), ?_⟩
    rw [ha, hrt]
    exact ⟨rfl, rfl, rfl, rfl, rfl, rfl, rfl⟩
  | lw hop hlt =>
    have ha := haddr hop (by decide) (by decide)
    refine ⟨_, .lw (hop' ▸ hop) (ha ▸ hlt), ?_⟩
    rw [ha, hrt]
    exact ⟨rfl, rfl, rfl, rfl, rfl, rfl, rfl⟩
  | sw hop hlt =>
    have ha := haddr hop (by decide) (by decide)
    refine ⟨_, .sw (hop' ▸ hop) (ha ▸ hlt), ?_⟩
    rw [ha, hrt]
    exact ⟨rfl, rfl, rfl, rfl, rfl, rfl, rfl⟩
  | notTaken hop hnot =>
    have hnot' := (not_congr (redirects_of_sameUsedFields p huse)).mpr hnot
    exact ⟨_, .notTaken (hop' ▸ hop) hnot', ready_drive_sameEffect s f w w' p _ _ _⟩
  | taken hred =>
    have hop : wOpcode w ≠ 0x00#6 := fun h0 =>
      absurd (h0 ▸ opcode_of_redirects hred) (by decide)
    refine ⟨_, .taken ((redirects_of_sameUsedFields p huse).mpr hred), ?_⟩
    rw [redirectTarget_of_sameUsedFields p huse hop]
    exact ready_drive_sameEffect s f w w' p _ _ _
  | raises hraise =>
    exact ⟨_, .raises (hraise.of_sameUsedFields p huse), rfl, rfl, rfl, rfl, rfl, rfl, rfl⟩

end IgnoredFields

/-! ## Held signals (R24) -/

/-- The Execute stage does not read the output ports. -/
theorem exec_drive (i : Instr) (s : State) (res : Word) (taken : Bool) (npc : Word) :
    exec i (s.drive res taken npc) = exec i s := by
  cases i with
  | sw rs rt rd shamt funct =>
    by_cases hlt : (s.effectiveAddress rs).toNat < memWords
    · exact (exec_sw_of_lt (s := s.drive res taken npc) rt rd shamt funct hlt).trans
        (exec_sw_of_lt rt rd shamt funct hlt).symm
    · have hle := Nat.le_of_not_lt hlt
      exact (exec_sw_of_le (s := s.drive res taken npc) rt rd shamt funct hle).trans
        (exec_sw_of_le rt rd shamt funct hle).symm
  | _ => rfl

theorem executeUnsupported_drive (e : DecodeError) (s : State) (res : Word) (taken : Bool)
    (npc : Word) : (s.drive res taken npc).executeUnsupported e = s.executeUnsupported e := by
  cases e <;> rfl

section HeldSignals

variable {s t : State} (h : SameCore s t)
include h

theorem fetchAt_of_sameCore : fetchAt t = fetchAt s := by
  obtain ⟨-, -, hpc, htaken, hout, -⟩ := h
  rw [fetchAt, htaken, hout, hpc]

theorem fetches_of_sameCore {f w : Word} (hfetch : Fetches s f w) : Fetches t f w := by
  obtain ⟨hrun, hf, hw⟩ := hfetch
  have hat := fetchAt_of_sameCore h
  obtain ⟨-, -, -, -, -, hfsr, hprogram, -⟩ := h
  exact ⟨hfsr ▸ hrun, hf.trans hat.symm, hprogram ▸ hw⟩

/-- A fetch and the Decode stage drive every held signal but the output ports. -/
theorem ready_of_sameCore (f w : Word) :
    t.ready f w = (s.ready f w).drive t.result t.branchTaken t.pcOut := by
  obtain ⟨hregs, hmem, -, -, -, hfsr, hprogram, hmode, hpolicy⟩ := h
  simp [State.ready, State.emit, State.decodeStage, State.drive, hregs, hmem, hfsr, hprogram, hmode,
    hpolicy]

theorem step_of_sameCore {f w : Word} (hfetch : Fetches s f w) : step t = step s := by
  have hfetch' := fetches_of_sameCore h hfetch
  cases hd : decodeWord w with
  | ok i =>
    rw [step_of_decodeWord_eq_ok hfetch hd, step_of_decodeWord_eq_ok hfetch' hd,
      ready_of_sameCore h, exec_drive]
  | error e =>
    rw [step_of_decodeWord_eq_error hfetch hd, step_of_decodeWord_eq_error hfetch' hd,
      ready_of_sameCore h, executeUnsupported_drive]

theorem fetchFails_sameCore (f : Word) : SameCore (s.fetchFails f) (t.fetchFails f) := by
  obtain ⟨hregs, hmem, -, htaken, hout, hfsr, hprogram, hmode, hpolicy⟩ := h
  exact ⟨hregs, hmem, rfl, htaken, hout, by rw [fetchFails_fsr, fetchFails_fsr, hfsr, hpolicy],
    hprogram, hmode, hpolicy⟩

/-- Steps from states alike in all but the held signals end in such states. -/
theorem exists_step_of_sameCore :
    ∃ s' t', step s = .next s' ∧ step t = .next t' ∧ SameCore s' t' := by
  obtain ⟨u, hu⟩ := exists_stepsTo s
  have hsu := step_of_stepsTo hu
  have hat := fetchAt_of_sameCore h
  obtain ⟨-, -, -, -, -, hfsr, hprogram, -⟩ := id h
  cases hu with
  | halted hh => exact ⟨s, t, hsu, step_halted t (hfsr ▸ hh), h⟩
  | fetchFails hrun hle =>
    have hle' : t.program.length ≤ (fetchAt t).toNat := by rwa [hat, hprogram]
    refine ⟨_, _, hsu, step_of_fetchOutOfBounds (hfsr ▸ hrun) hle', ?_⟩
    rw [hat]
    exact fetchFails_sameCore h _
  | evaluates hfetch _ =>
    refine ⟨u, u, hsu, (step_of_sameCore h hfetch).trans hsu, ?_⟩
    exact ⟨rfl, rfl, rfl, rfl, rfl, rfl, rfl, rfl, rfl⟩

end HeldSignals

/-! ## `FSR` (R18) -/

theorem Raises.of_fsr {s : State} {w addr : Word} {e : Fault} (h : Raises s w e addr) (g : Fsr) :
    Raises { s with fsr := g } w e addr := by
  cases h with
  | memory hop hle => exact .memory (s := { s with fsr := g }) hop hle
  | opcode hop => exact .opcode hop
  | funct hop hfn => exact .funct hop hfn

/-- An evaluation from another `FSR` differs at most in `FSR`. -/
theorem Evaluates.of_fsr {s t : State} {f w : Word} (h : Evaluates s f w t) (g : Fsr) :
    ∃ g', Evaluates { s with fsr := g } f w { t with fsr := g' } := by
  cases h with
  | rType hop hfn => exact ⟨g, .rType hop hfn⟩
  | addi hop => exact ⟨g, .addi hop⟩
  | lw hop hlt => exact ⟨g, .lw hop hlt⟩
  | sw hop hlt => exact ⟨g, .sw hop hlt⟩
  | notTaken hop hnot => exact ⟨g, .notTaken hop hnot⟩
  | taken h => exact ⟨g, .taken h⟩
  | raises h => exact ⟨_, .raises (h.of_fsr g)⟩

/-! ## The statements -/

/-- Settles O21: the Program with the other word in its place is fetched from the same index. -/
theorem ignoredFieldsHaveNoEffect : Obligations.IgnoredFieldsHaveNoEffect := by
  intro s f w w' hfetch huse
  obtain ⟨t, ht⟩ := exists_evaluates s f w
  obtain ⟨t', ht', heffect⟩ := ht.of_sameUsedFields (s.program.set f.toNat w') huse
  refine ⟨t, t', step_of_evaluates hfetch ht, step_of_evaluates ?_ ht', heffect⟩
  have hlt := lt_of_fetches hfetch
  obtain ⟨hrun, hf, -⟩ := hfetch
  exact ⟨hrun, hf, List.getElem?_set_self hlt⟩

/-- Settles O52. -/
theorem heldSignalsDoNotMatter : Obligations.HeldSignalsDoNotMatter := fun _ _ _ _ h hfetch =>
  step_of_sameCore h hfetch

/-- Settles O53, by induction on the number of edges. -/
theorem runsFromAlikeStatesAgree : Obligations.RunsFromAlikeStatesAgree := by
  intro n
  induction n with
  | zero => exact fun s t h => ⟨s, t, runEdges_zero s, runEdges_zero t, h⟩
  | succ n ih =>
    intro s t h
    obtain ⟨s', t', hs, ht, h'⟩ := exists_step_of_sameCore h
    rw [runEdges_succ n s s' hs, runEdges_succ n t t' ht]
    exact ih s' t' h'

/-- Settles O54. -/
theorem fsrIsInvisible : Obligations.FsrIsInvisible := by
  intro s g _ hrun hrun'
  by_cases hlt : (fetchAt s).toNat < s.program.length
  · obtain ⟨w, hfetch⟩ := exists_fetches hrun hlt
    obtain ⟨t, ht⟩ := exists_evaluates s (fetchAt s) w
    obtain ⟨g', ht'⟩ := ht.of_fsr g
    obtain ⟨-, hf, hw⟩ := id hfetch
    exact ⟨t, g', step_of_evaluates hfetch ht, step_of_evaluates ⟨hrun', hf, hw⟩ ht'⟩
  · have hle := Nat.le_of_not_lt hlt
    exact ⟨_, _, step_of_fetchOutOfBounds hrun hle,
      step_of_fetchOutOfBounds (s := { s with fsr := g }) hrun' hle⟩

end Sys2Proof
end

section
/-! PROOFS. The harness (spec/10_state.md R26, spec/70_reset_and_hazards.md R131): the register
accessors, and what the setup before the first clock edge leaves. -/

namespace Sys2Proof

open Sys2Proof.Claims Sys2Proof.Machine

/-! ## The register accessors (R26) -/

section Accessors

variable {i : Nat} (s : State)

theorem setReg_of_mem (v : Word) (h1 : 1 ≤ i) (h31 : i ≤ 31) :
    Harness.setReg i v s = s.writeReg (BitVec.ofNat 5 i) v := if_pos ⟨h1, h31⟩

/-- `set_reg` ignores register 0 and every index that no register has. -/
theorem setReg_of_not_mem (v : Word) (h : i = 0 ∨ 32 ≤ i) : Harness.setReg i v s = s :=
  if_neg (by omega)

theorem setReg_mem_or_not (i : Nat) : (1 ≤ i ∧ i ≤ 31) ∨ i = 0 ∨ 32 ≤ i := by omega

theorem getReg_of_lt (h : i < 32) : Harness.getReg i s = .ok (s.reg (BitVec.ofNat 5 i)) := if_pos h

theorem getReg_of_le (h : 32 ≤ i) :
    Harness.getReg i s = .error (.registerIndexOutOfRange i) := if_neg h.not_gt

/-- Different indices below 32 are the numbers of different registers. -/
theorem ofNat_five_ne {j : Nat} (hi : i < 32) (hj : j < 32) (hne : j ≠ i) :
    BitVec.ofNat 5 j ≠ BitVec.ofNat 5 i := by
  intro heq
  have hnat := congrArg BitVec.toNat heq
  rw [BitVec.toNat_ofNat, BitVec.toNat_ofNat, Nat.mod_eq_of_lt hi, Nat.mod_eq_of_lt hj] at hnat
  exact hne hnat

theorem getReg_setReg_same (v : Word) (h1 : 1 ≤ i) (h31 : i ≤ 31) :
    Harness.getReg i (Harness.setReg i v s) = .ok v := by
  rw [setReg_of_mem s v h1 h31, getReg_of_lt _ (by omega), reg_writeReg_same]

theorem getReg_setReg_other (v : Word) {j : Nat} (hne : j ≠ i) :
    Harness.getReg j (Harness.setReg i v s) = Harness.getReg j s := by
  obtain ⟨h1, h31⟩ | hout := setReg_mem_or_not i
  · rw [setReg_of_mem s v h1 h31]
    by_cases hj : j < 32
    · rw [getReg_of_lt _ hj, getReg_of_lt _ hj,
        reg_writeReg_other s _ _ v (ofNat_five_ne (by omega) hj hne)]
    · rw [getReg_of_le _ (Nat.le_of_not_lt hj), getReg_of_le _ (Nat.le_of_not_lt hj)]
  · rw [setReg_of_not_mem s v hout]

/-- `set_reg` changes nothing but registers. -/
theorem setReg_frame (i : Nat) (v : Word) : { Harness.setReg i v s with regs := s.regs } = s := by
  obtain ⟨h1, h31⟩ | hout := setReg_mem_or_not i
  · rw [setReg_of_mem s v h1 h31]
    rfl
  · rw [setReg_of_not_mem s v hout]

/-- Pairs are applied in list order, so that the last one is applied last. -/
theorem applyInitRegs_concat (pairs : List (Nat × Word)) (p : Nat × Word) :
    Harness.applyInitRegs (pairs ++ [p]) s =
      Harness.setReg p.1 p.2 (Harness.applyInitRegs pairs s) :=
  List.foldl_concat ..

end Accessors

/-! ## The setup (R131) -/

theorem installProgram_of_lt {p : List Word} (h : p.length < progLenBound) (s : State) :
    Harness.installProgram p s = .next { s with program := p } :=
  if_pos (decide_eq_true h)

theorem installProgram_of_le {p : List Word} (h : progLenBound ≤ p.length) (s : State) :
    Harness.installProgram p s = .refused .programTooLong :=
  if_neg (by simpa [programWf] using h)

/-- What the setup leaves: the invariant, the given Program and parameters, `pc = 0` and `x[0] = 0`. -/
def IsSetUp (mode : PcinMode) (policy : FatalPolicy) (p : List Word) (s : State) : Prop :=
  Inv s ∧ s.program = p ∧ s.pcinMode = mode ∧ s.fatalPolicy = policy ∧ s.pc = 0 ∧ s.reg 0 = 0

section Setup

variable {mode : PcinMode} {policy : FatalPolicy} {p : List Word} {s : State}

/-- The reset state with the parameters and the Program installed. -/
theorem isSetUp_installed (h : p.length < progLenBound) :
    IsSetUp mode policy p
      { State.reset with pcinMode := mode, fatalPolicy := policy, program := p } := by
  obtain ⟨hmem, -, hdecoded, himm, -, -, -, hresult⟩ := resetHasTheInvariant
  exact ⟨⟨hmem, h, hdecoded, himm, fsrLegal_clear policy, fun _ => Nat.zero_le _, fun _ _ => rfl,
    hresult⟩, rfl, rfl, rfl, rfl, resetValues.1 0⟩

/-- `set_reg` never writes register 0. -/
theorem IsSetUp.setReg (h : IsSetUp mode policy p s) (i : Nat) (v : Word) :
    IsSetUp mode policy p (Harness.setReg i v s) := by
  obtain ⟨h1, h31⟩ | hout := setReg_mem_or_not i
  · obtain ⟨hinv, hprogram, hmode, hpolicy, hpc, hzero⟩ := h
    rw [setReg_of_mem s v h1 h31]
    obtain ⟨hmem, hbound, hdecoded, himm, hfsr, hwithin, hnext, hresult⟩ := hinv
    refine ⟨⟨hmem, hbound, hdecoded, himm, hfsr, hwithin, hnext, hresult⟩, hprogram, hmode, hpolicy,
      hpc, ?_⟩
    have hne : (0 : RegNum) ≠ BitVec.ofNat 5 i :=
      ofNat_five_ne (i := i) (j := 0) (by omega) (by decide) (by omega)
    rw [reg_writeReg_other s _ _ v hne, hzero]
  · rwa [setReg_of_not_mem s v hout]

/-- A memory preset out of bounds is an error that `FSR` records like any other. -/
theorem IsSetUp.writeMem (h : IsSetUp mode policy p s) (a v : Word) :
    IsSetUp mode policy p (Harness.writeMem a v s) := by
  obtain ⟨hinv, hprogram, hmode, hpolicy, hpc, hzero⟩ := h
  obtain ⟨hmem, hbound, hdecoded, himm, hfsr, hwithin, hnext, hresult⟩ := hinv
  by_cases hlt : a.toNat < memWords
  · rw [writeMem_of_lt s v hlt]
    exact ⟨⟨memPut_wf s.mem a.toNat v hmem hlt, hbound, hdecoded, himm, hfsr, hwithin, hnext,
      hresult⟩, hprogram, hmode, hpolicy, hpc, hzero⟩
  · have hle := Nat.le_of_not_lt hlt
    rw [writeMem_of_le s v hle]
    exact ⟨⟨hmem, hbound, hdecoded, himm, fsrLegal_recordFault hfsr s.pc hle,
      fun h => absurd h (by simp [recordFault]), hnext, hresult⟩,
      hprogram, hmode, hpolicy, hpc, hzero⟩

theorem IsSetUp.applyInitRegs (h : IsSetUp mode policy p s) (pairs : List (Nat × Word)) :
    IsSetUp mode policy p (Harness.applyInitRegs pairs s) := by
  induction pairs generalizing s with
  | nil => exact h
  | cons q pairs ih => exact ih (h.setReg q.1 q.2)

theorem IsSetUp.presetMem (h : IsSetUp mode policy p s) (pairs : List (Word × Word)) :
    IsSetUp mode policy p (Harness.presetMem pairs s) := by
  induction pairs generalizing s with
  | nil => exact h
  | cons q pairs ih => exact ih (h.writeMem q.1 q.2)

end Setup

/-! ## The statements -/

/-- Settles O55. -/
theorem registerAccessors : Obligations.RegisterAccessors := by
  intro s i v
  refine ⟨getReg_setReg_same s v, fun j hne => getReg_setReg_other s v hne,
    setReg_of_not_mem s v, setReg_frame s i v, fun pairs h1 h31 => ?_, getReg_of_lt s,
    getReg_of_le s⟩
  rw [applyInitRegs_concat]
  exact getReg_setReg_same _ v h1 h31

/-- Settles O57: the installed reset state is set up, and neither list changes that. -/
theorem setupHasTheInvariant : Obligations.SetupHasTheInvariant := by
  intro mode policy p initRegs initMem
  refine ⟨fun hlt => ?_, fun hle => ?_⟩
  · rw [Harness.setup, installProgram_of_lt hlt]
    exact ⟨_, rfl, ((isSetUp_installed hlt).applyInitRegs initRegs).presetMem initMem⟩
  · rw [Harness.setup, installProgram_of_le hle]

end Sys2Proof
end
